-- ==== Sys2Proof/Word.lean ====
section
/-! DEFINITION. The word types of the machine (00_scope.md R6, R9, R10): every value is an unsigned bit field. -/

namespace Sys2Proof

/-- A byte: a V register, a timer, a memory cell, an immediate kk (R6, XLEN = 8). -/
abbrev Byte := BitVec 8

/-- A 16-bit word: an instruction, PC, I, a return address (R6). -/
abbrev Word := BitVec 16

/-- A register number, the field x or y of an instruction (R9). -/
abbrev Reg := BitVec 4

/-- A four-bit field that is no register number: the row count n of DRW, a sub-selector (R9). -/
abbrev Nibble := BitVec 4

/-- A 12-bit address immediate nnn (R9). -/
abbrev Addr12 := BitVec 12

/-- VF, the register V[15] that seven instructions use as the flag (10_state.md R14). -/
abbrev VF : Reg := 15#4

end Sys2Proof
end

