-- ==== Sys2Proof/Syntax.lean ====
section
/-! DEFINITION. The 35 instructions, one constructor per row of spec/opcode_table.json
(30_encoding.md R60). Operands are the fields of the word, unsigned and as they stand (R57). -/

namespace Sys2Proof

/-- An instruction of the base CHIP-8 set (00_scope.md R2). The two shifts keep the y field they do not use
(30_encoding.md R66), so that the word of an instruction can be written back exactly. -/
inductive Instr where
  /-- `00E0` CLS (44_display.md R115). -/
  | cls
  /-- `00EE` RET (41_control_flow.md R82). -/
  | ret
  /-- `0nnn` SYS nnn (R83). -/
  | sys (nnn : Addr12)
  /-- `1nnn` JP nnn (R84). -/
  | jp (nnn : Addr12)
  /-- `2nnn` CALL nnn (R85). -/
  | call (nnn : Addr12)
  /-- `3xkk` SE Vx, kk (R87). -/
  | seImm (x : Reg) (kk : Byte)
  /-- `4xkk` SNE Vx, kk (R88). -/
  | sneImm (x : Reg) (kk : Byte)
  /-- `5xy0` SE Vx, Vy (R89). -/
  | seReg (x y : Reg)
  /-- `9xy0` SNE Vx, Vy (R90). -/
  | sneReg (x y : Reg)
  /-- `6xkk` LD Vx, kk (42_load_alu.md R93). -/
  | ldImm (x : Reg) (kk : Byte)
  /-- `7xkk` ADD Vx, kk (R94). -/
  | addImm (x : Reg) (kk : Byte)
  /-- `8xy0` LD Vx, Vy (R95). -/
  | ldReg (x y : Reg)
  /-- `8xy1` OR Vx, Vy (R96). -/
  | orReg (x y : Reg)
  /-- `8xy2` AND Vx, Vy (R97). -/
  | andReg (x y : Reg)
  /-- `8xy3` XOR Vx, Vy (R98). -/
  | xorReg (x y : Reg)
  /-- `8xy4` ADD Vx, Vy (R99). -/
  | addReg (x y : Reg)
  /-- `8xy5` SUB Vx, Vy (R100). -/
  | subReg (x y : Reg)
  /-- `8xy6` SHR Vx; y is not used (R101). -/
  | shr (x y : Reg)
  /-- `8xy7` SUBN Vx, Vy (R102). -/
  | subnReg (x y : Reg)
  /-- `8xyE` SHL Vx; y is not used (R103). -/
  | shl (x y : Reg)
  /-- `Annn` LD I, nnn (43_index_memory.md R107). -/
  | ldI (nnn : Addr12)
  /-- `Bnnn` JP V0, nnn (41_control_flow.md R86). -/
  | jpV0 (nnn : Addr12)
  /-- `Cxkk` RND Vx, kk (42_load_alu.md R104). -/
  | rnd (x : Reg) (kk : Byte)
  /-- `Dxyn` DRW Vx, Vy, n (44_display.md R117). -/
  | drw (x y : Reg) (n : Nibble)
  /-- `Ex9E` SKP Vx (45_keypad_timers.md R121). -/
  | skp (x : Reg)
  /-- `ExA1` SKNP Vx (R122). -/
  | sknp (x : Reg)
  /-- `Fx07` LD Vx, DT (R125). -/
  | ldVxDT (x : Reg)
  /-- `Fx15` LD DT, Vx (R126). -/
  | ldDTVx (x : Reg)
  /-- `Fx18` LD ST, Vx (R127). -/
  | ldSTVx (x : Reg)
  /-- `Fx0A` LD Vx, K (R123, R124). -/
  | ldVxK (x : Reg)
  /-- `Fx1E` ADD I, Vx (43_index_memory.md R108). -/
  | addI (x : Reg)
  /-- `Fx29` LD F, Vx (R109). -/
  | ldF (x : Reg)
  /-- `Fx33` LD B, Vx (R110). -/
  | ldB (x : Reg)
  /-- `Fx55` LD [I], Vx (R111). -/
  | ldMemVx (x : Reg)
  /-- `Fx65` LD Vx, [I] (R112). -/
  | ldVxMem (x : Reg)
  deriving DecidableEq, Repr

end Sys2Proof
end

