-- ==== Sys2Proof/WellFormed.lean ====
section
/-! DEFINITION. Which instructions have a word of their own (30_encoding.md R59). -/

namespace Sys2Proof

/-- An instruction that some word encodes. The fields are as wide as the encoding's, so the one check is family 0:
`0x00E0` and `0x00EE` are CLS and RET, hence SYS reaches every address but these two (R59, 41_control_flow.md R83). -/
def Instr.wf : Instr → Bool
  | .sys nnn => nnn != 0x0E0#12 && nnn != 0x0EE#12
  | _ => true

/-- `Instr.wf` as a proposition. -/
abbrev WellFormed (i : Instr) : Prop := i.wf = true

end Sys2Proof
end

