-- ==== Sys2Proof/Decode.lean ====
section
/-! DEFINITION. The decoder of 30_encoding.md R58, total on words and on bytes, and the encoder of R60. -/

namespace Sys2Proof

/-- Why bytes decode to no instruction: the rows of R65, and an input shorter than one word. -/
inductive DecodeReject where
  /-- `5xyN` with N not 0 (R62). -/
  | family5LowNibble
  /-- `9xyN` with N not 0 (R62). -/
  | family9LowNibble
  /-- `8xyN` with N in 8, 9, A, B, C, D, F (R61). -/
  | family8LowNibble
  /-- `ExKK` with KK neither 9E nor A1 (R63). -/
  | familyELowByte
  /-- `FxKK` with KK none of the nine (R64). -/
  | familyFLowByte
  /-- Fewer than two bytes (R55: every instruction is two bytes). -/
  | truncated
  deriving DecidableEq, Repr

/-- The answer of the decoder for one word (R58). -/
inductive DecodeResult where
  | ok (i : Instr)
  | reject (why : DecodeReject)
  deriving DecidableEq, Repr

/-- The instruction of an answer, if there is one. -/
def DecodeResult.instr? : DecodeResult → Option Instr
  | .ok i => some i
  | .reject _ => none

/-- Family 8, selected by the low nibble (R61). -/
def decodeFamily8 (x y : Reg) (n : Nibble) : DecodeResult :=
  match n with
  | 0x0#4 => .ok (.ldReg x y)
  | 0x1#4 => .ok (.orReg x y)
  | 0x2#4 => .ok (.andReg x y)
  | 0x3#4 => .ok (.xorReg x y)
  | 0x4#4 => .ok (.addReg x y)
  | 0x5#4 => .ok (.subReg x y)
  | 0x6#4 => .ok (.shr x y)
  | 0x7#4 => .ok (.subnReg x y)
  | 0xE#4 => .ok (.shl x y)
  | _ => .reject .family8LowNibble

/-- Family E, selected by the low byte (R63). -/
def decodeFamilyE (x : Reg) (kk : Byte) : DecodeResult :=
  match kk with
  | 0x9E#8 => .ok (.skp x)
  | 0xA1#8 => .ok (.sknp x)
  | _ => .reject .familyELowByte

/-- Family F, selected by the low byte (R64). -/
def decodeFamilyF (x : Reg) (kk : Byte) : DecodeResult :=
  match kk with
  | 0x07#8 => .ok (.ldVxDT x)
  | 0x0A#8 => .ok (.ldVxK x)
  | 0x15#8 => .ok (.ldDTVx x)
  | 0x18#8 => .ok (.ldSTVx x)
  | 0x1E#8 => .ok (.addI x)
  | 0x29#8 => .ok (.ldF x)
  | 0x33#8 => .ok (.ldB x)
  | 0x55#8 => .ok (.ldMemVx x)
  | 0x65#8 => .ok (.ldVxMem x)
  | _ => .reject .familyFLowByte

/-- Family 0: `00E0` and `00EE` are matched on all 16 bits, every other word is SYS (R59). -/
def decodeFamily0 (nnn : Addr12) : DecodeResult :=
  match nnn with
  | 0x0E0#12 => .ok .cls
  | 0x0EE#12 => .ok .ret
  | _ => .ok (.sys nnn)

/-- The decision tree of R58 on the four nibbles of a word, family first. -/
def decodeNibbles (f x y n : BitVec 4) : DecodeResult :=
  match f with
  | 0x0#4 => decodeFamily0 (x ++ y ++ n)
  | 0x1#4 => .ok (.jp (x ++ y ++ n))
  | 0x2#4 => .ok (.call (x ++ y ++ n))
  | 0x3#4 => .ok (.seImm x (y ++ n))
  | 0x4#4 => .ok (.sneImm x (y ++ n))
  | 0x5#4 => if n = 0x0#4 then .ok (.seReg x y) else .reject .family5LowNibble
  | 0x6#4 => .ok (.ldImm x (y ++ n))
  | 0x7#4 => .ok (.addImm x (y ++ n))
  | 0x8#4 => decodeFamily8 x y n
  | 0x9#4 => if n = 0x0#4 then .ok (.sneReg x y) else .reject .family9LowNibble
  | 0xA#4 => .ok (.ldI (x ++ y ++ n))
  | 0xB#4 => .ok (.jpV0 (x ++ y ++ n))
  | 0xC#4 => .ok (.rnd x (y ++ n))
  | 0xD#4 => .ok (.drw x y n)
  | 0xE#4 => decodeFamilyE x (y ++ n)
  | _ => decodeFamilyF x (y ++ n)

/-- Bits hi..hi-3 of a word, the nibble of one hexadecimal digit (R9). -/
def nibbleAt (op : Word) (lo : Nat) : BitVec 4 := op.extractLsb' lo 4

/-- `Decode(op)` of R58: total on all 65536 words. -/
def decodeWord (op : Word) : DecodeResult :=
  decodeNibbles (nibbleAt op 12) (nibbleAt op 8) (nibbleAt op 4) (nibbleAt op 0)

/-- The big-endian word of two bytes, the first at the lower address (20_memory.md R40, R43). -/
def wordOfBytes (hi lo : Byte) : Word := hi ++ lo

/-- The two bytes of a word in memory order (R43). -/
def bytesOfWord (op : Word) : List Byte := [op.extractLsb' 8 8, op.extractLsb' 0 8]

/-- What decoding a stream of bytes gives: an instruction and the bytes after it, or a reason. -/
inductive StreamResult where
  | ok (i : Instr) (rest : List Byte)
  | reject (why : DecodeReject)
  deriving DecidableEq, Repr

/-- Decoding from bytes, total: one word of two bytes, high byte first (R55, R43). -/
def decodeBytes : List Byte → StreamResult
  | hi :: lo :: rest =>
    match decodeWord (wordOfBytes hi lo) with
    | .ok i => .ok i rest
    | .reject why => .reject why
  | _ => .reject .truncated

/-- The word of an instruction, by the pattern of its row in R60. -/
def encode : Instr → Word
  | .cls => 0x00E0#16
  | .ret => 0x00EE#16
  | .sys nnn => 0x0#4 ++ nnn
  | .jp nnn => 0x1#4 ++ nnn
  | .call nnn => 0x2#4 ++ nnn
  | .seImm x kk => 0x3#4 ++ x ++ kk
  | .sneImm x kk => 0x4#4 ++ x ++ kk
  | .seReg x y => 0x5#4 ++ x ++ y ++ 0x0#4
  | .sneReg x y => 0x9#4 ++ x ++ y ++ 0x0#4
  | .ldImm x kk => 0x6#4 ++ x ++ kk
  | .addImm x kk => 0x7#4 ++ x ++ kk
  | .ldReg x y => 0x8#4 ++ x ++ y ++ 0x0#4
  | .orReg x y => 0x8#4 ++ x ++ y ++ 0x1#4
  | .andReg x y => 0x8#4 ++ x ++ y ++ 0x2#4
  | .xorReg x y => 0x8#4 ++ x ++ y ++ 0x3#4
  | .addReg x y => 0x8#4 ++ x ++ y ++ 0x4#4
  | .subReg x y => 0x8#4 ++ x ++ y ++ 0x5#4
  | .shr x y => 0x8#4 ++ x ++ y ++ 0x6#4
  | .subnReg x y => 0x8#4 ++ x ++ y ++ 0x7#4
  | .shl x y => 0x8#4 ++ x ++ y ++ 0xE#4
  | .ldI nnn => 0xA#4 ++ nnn
  | .jpV0 nnn => 0xB#4 ++ nnn
  | .rnd x kk => 0xC#4 ++ x ++ kk
  | .drw x y n => 0xD#4 ++ x ++ y ++ n
  | .skp x => 0xE#4 ++ x ++ 0x9E#8
  | .sknp x => 0xE#4 ++ x ++ 0xA1#8
  | .ldVxDT x => 0xF#4 ++ x ++ 0x07#8
  | .ldDTVx x => 0xF#4 ++ x ++ 0x15#8
  | .ldSTVx x => 0xF#4 ++ x ++ 0x18#8
  | .ldVxK x => 0xF#4 ++ x ++ 0x0A#8
  | .addI x => 0xF#4 ++ x ++ 0x1E#8
  | .ldF x => 0xF#4 ++ x ++ 0x29#8
  | .ldB x => 0xF#4 ++ x ++ 0x33#8
  | .ldMemVx x => 0xF#4 ++ x ++ 0x55#8
  | .ldVxMem x => 0xF#4 ++ x ++ 0x65#8

/-- The word of the opcode table's bits: bit 0 of w is bit 0 of the one word, and bits at nbits and above are 0. -/
def tableWord (nbits w : Nat) : Word := BitVec.ofNat 16 (w % 2 ^ nbits)

/-- What the decoder reads from an instruction whose bits the table numbers as w: the word is laid out in memory order
(high byte first) and given to `decodeBytes`. -/
def decodeTableWord (nbits w : Nat) : Option Instr :=
  match decodeBytes (bytesOfWord (tableWord nbits w)) with
  | .ok i _ => some i
  | .reject _ => none

end Sys2Proof
end

