-- ==== Sys2Proof/Config.lean ====
section
/-! DEFINITION. The open parameters of 00_scope.md R7 and the one free value of the machine. -/

namespace Sys2Proof

/-- The bytes the random source answers, the n-th draw being `Config.randomByte n` (42_load_alu.md R104: "a free draw,
one fresh byte per executed Cxkk, under no law"). It has no body: nothing can be proved of a particular byte, so a claim
about RND holds for every byte drawn (assumption log 5). -/
opaque Config.randomByte : Nat → Byte

/-- The open parameters a machine is constructed with (R7): FONT, MEM_BACKGROUND and STACK_INIT. -/
structure Config.Params where
  /-- FONT: 80 bytes, glyph d at 5*d (20_memory.md R46). -/
  font : List Byte
  /-- MEM_BACKGROUND: the contents of the 4096 cells before the font is written (R151). -/
  background : List Byte
  /-- STACK_INIT: the stack slots before the first push (10_state.md R34). -/
  stackInit : Vector Word 16
  deriving DecidableEq, Repr

/-- PROG_BASE (R6): the load address of the program and the reset value of PC. -/
abbrev Config.progBase : Nat := 0x200

/-- PROG_MAX (R6): the largest program, in bytes. -/
abbrev Config.progMax : Nat := 3584

end Sys2Proof
end

