-- ==== Sys2Proof/Machine/State.lean ====
section
/-! DEFINITION. The state of the machine (10_state.md), its fault and refusal names, and the state after reset. -/

namespace Sys2Proof.Machine

/-- The five fatal fault causes (60_exceptions.md R128), a closed list with no numbers. Taking one is a NEXT state in which
FAULT records it and RUN is Faulted (R134), so no step answers `Outcome.fault` with one: SAFE, since the spec's fault entry
itself is modelled (assumption log 7). -/
inductive Fault where
  /-- Raised by phase 3 of a cycle on an illegal word (R129). SAFE. -/
  | decodeError
  /-- Raised by CALL and JP V0 when SP = 16 (R130). SAFE. -/
  | stackOverflow
  /-- Raised by RET when SP = 0 (R131). SAFE. -/
  | stackUnderflow
  /-- Raised by fetch above 0xFFE, by DRW, LD B, LD [I], LD Vx,[I] on an address above 0xFFF, and by start on a program
  longer than 3584 bytes (R132). SAFE. -/
  | addressOutOfRange
  /-- Raised by SKP and SKNP when V[x] > 15 (R133). SAFE. -/
  | keyIndexOutOfRange
  deriving DecidableEq, Repr

/-- Why the model gives a step no meaning. -/
inductive Refusal where
  /-- An arm of exec whose instruction has no meaning in this model; no arm answers it. SAFE. -/
  | notModelled (mnemonic : String)
  /-- Raised by the host event start while RUN is Running or WaitKey: "this spec gives that case no meaning: a model
  refuses it" (60_exceptions.md R144). SAFE (assumption log 8). -/
  | startWhileActive
  deriving DecidableEq, Repr

/-- RUN, the state of the loop (10_state.md R29). `waitKey x` is the wait request of R28. -/
inductive RunState where
  | idle
  | running
  | waitKey (x : Reg)
  | stopped
  | faulted
  deriving DecidableEq, Repr

/-- FAULT, the record of a fatal fault (10_state.md R30): cause, opcode where one was fetched, address where one exists. -/
structure FaultRecord where
  cause : Fault
  opcode : Option Word
  addr : Option Word
  deriving DecidableEq, Repr

/-- MEM as the cells that differ from what an unlisted address reads as (`Memory.unlisted`), rising by address. -/
abbrev Memory := List Host.Cell

/-- FB: 32 rows of 64 one-bit pixels, row-major; pixel (px, py), cell px + 64*py of R25, is bit px of row py. -/
abbrev FrameBuffer := Vector (BitVec 64) 32

/-- The record published at the end of a completed cycle (60_exceptions.md R148). -/
structure Snapshot where
  pc : Word
  i : Word
  v : Vector Byte 16
  dt : Byte
  st : Byte
  stack : Vector Word 16
  sp : Fin 17
  mem : Memory
  key : Vector Bool 16
  fb : FrameBuffer
  deriving DecidableEq, Repr

/-- What the host can do between two cycles (60_exceptions.md R144 to R147, R150). Key numbers are natural numbers, since
the host may send one above 15 (R146). -/
inductive HostEvent where
  /-- The tick that starts a cycle (40_cycle.md R70). -/
  | tick
  | start (program : List Byte)
  | stop
  | press (k : Nat)
  | release (k : Nat)
  deriving DecidableEq, Repr

/-- Everything the spec gives the machine, and three fields of the model's own (`snapshots`, `draws`, `hostScript`). -/
structure State where
  /-- V[0..15] (10_state.md R13). -/
  v : Vector Byte 16
  /-- I (R16). -/
  i : Word
  /-- PC (R17). -/
  pc : Word
  /-- DT (R18). -/
  dt : Byte
  /-- ST (R19). -/
  st : Byte
  /-- SP, the number of live stack entries, 0..16 (R20). -/
  sp : Fin 17
  /-- STACK[0..15] (R21). -/
  stack : Vector Word 16
  /-- FB (R25). -/
  fb : FrameBuffer
  /-- KEY[0..15], true while held (R27). -/
  key : Vector Bool 16
  /-- RUN (R29). -/
  run : RunState
  /-- FAULT (R30). -/
  fault : Option FaultRecord
  /-- MEM (R31). -/
  mem : Memory
  /-- The last snapshot published (60_exceptions.md R148, R134); none before the first completed cycle (40_cycle.md R76). -/
  snapshot : Option Snapshot
  /-- How many snapshots have been published. The MODEL's own count (assumption log 9). -/
  snapshots : Nat
  /-- How many random bytes have been drawn. The MODEL's own index of the free value (assumption log 5). -/
  draws : Nat
  /-- What the host does next, oldest first; when it is empty the host ticks. The MODEL's own way to hold the host's
  choices as data (assumption log 6). -/
  hostScript : List HostEvent
  deriving DecidableEq, Repr

/-- The machine after reset: the launch state of 70_reset_and_hazards.md R153 for the empty program, with the default
parameters (assumption logs 1 to 4). -/
def State.reset : State where
  v := Vector.replicate 16 0
  i := 0
  pc := 0x200
  dt := 0
  st := 0
  sp := 0
  stack := Vector.replicate 16 0
  fb := Vector.replicate 32 0
  key := Vector.replicate 16 false
  run := .running
  fault := none
  mem := []
  snapshot := none
  snapshots := 0
  draws := 0
  hostScript := []

/-- What a meaning and a step answer. -/
abbrev Result := Host.Outcome State Fault Refusal

end Sys2Proof.Machine
end

