-- ==== Sys2Proof/Machine/Ops.lean ====
section
/-! DEFINITION. The named operations over registers, memory, stack, framebuffer and keypad, the timer step, the snapshot,
and taking a fatal fault (10_state.md, 20_memory.md, 40_cycle.md R75 and R76, 60_exceptions.md R134). An operation that the
spec lets raise a fault answers `none` for it; `State.orRaise` turns that into the fault entry. -/

namespace Sys2Proof.Machine

/-! ## Memory -/

/-- The default FONT, glyph d at 5*d (20_memory.md R46). PRESUMED: the spec takes the bytes from general knowledge
(assumption log 2). -/
def Memory.defaultFont : List Byte :=
  [0xF0, 0x90, 0x90, 0x90, 0xF0, 0x20, 0x60, 0x20, 0x20, 0x70]
    ++ [0xF0, 0x10, 0xF0, 0x80, 0xF0, 0xF0, 0x10, 0xF0, 0x10, 0xF0]
    ++ [0x90, 0x90, 0xF0, 0x10, 0x10, 0xF0, 0x80, 0xF0, 0x10, 0xF0]
    ++ [0xF0, 0x80, 0xF0, 0x90, 0xF0, 0xF0, 0x10, 0x20, 0x40, 0x40]
    ++ [0xF0, 0x90, 0xF0, 0x90, 0xF0, 0xF0, 0x90, 0xF0, 0x10, 0xF0]
    ++ [0xF0, 0x90, 0xF0, 0x90, 0x90, 0xE0, 0x90, 0xE0, 0x90, 0xE0]
    ++ [0xF0, 0x80, 0x80, 0x80, 0xF0, 0xE0, 0x90, 0x90, 0x90, 0xE0]
    ++ [0xF0, 0x80, 0xF0, 0x80, 0xF0, 0xF0, 0x80, 0xF0, 0x80, 0x80]

/-- What an unlisted address reads as: the memory of the default machine right after construction (70_reset_and_hazards.md
R151), FONT at 0x000 to 0x04F and MEM_BACKGROUND, default 0x00, elsewhere (assumption logs 2 and 3). Every other memory
image is a list of the cells that differ. -/
def Memory.unlisted (a : Nat) : Byte := if a < 80 then Memory.defaultFont.getD a 0 else 0

/-- The byte at an address (no range check: see `State.memRead`). -/
def Memory.read : Memory → Nat → Byte
  | [], a => Memory.unlisted a
  | c :: m, a => if c.1 = a then c.2 else Memory.read m a

/-- The list without any cell at an address. -/
def Memory.drop (m : Memory) (a : Nat) : Memory := m.filter fun c => c.1 != a

/-- A cell put before the first cell of a higher address. -/
def Memory.insert : Memory → Nat → Byte → Memory
  | [], a, b => [(a, b)]
  | c :: m, a, b => if a < c.1 then (a, b) :: c :: m else c :: Memory.insert m a b

/-- One byte written, in canonical form: a cell equal to what its address reads as unlisted is not listed. -/
def Memory.write (m : Memory) (a : Nat) (b : Byte) : Memory :=
  if b = Memory.unlisted a then Memory.drop m a else Memory.insert (Memory.drop m a) a b

/-- Consecutive bytes written, the first at the address given. -/
def Memory.writeBytes : Memory → Nat → List Byte → Memory
  | m, _, [] => m
  | m, a, b :: bs => Memory.writeBytes (Memory.write m a b) (a + 1) bs

/-- Consecutive bytes read. -/
def Memory.readBytes (m : Memory) (a len : Nat) : List Byte := (List.range len).map fun k => m.read (a + k)

/-- The canonical form: addresses strictly rising and inside the 4096 cells, no cell equal to its unlisted value. -/
abbrev Memory.wf (m : Memory) : Prop :=
  m.Pairwise (fun c d => c.1 < d.1) ∧ ∀ c ∈ m, c.1 ≤ 0xFFF ∧ c.2 ≠ Memory.unlisted c.1

/-- Whether len consecutive bytes from an address lie in memory: the highest effective address is at most 0xFFF, and an
access of no bytes reaches nothing (43_index_memory.md R106, 44_display.md R117). -/
def Memory.rangeOk (a len : Nat) : Bool := len == 0 || a + len - 1 ≤ 0xFFF

/-- `MemRead(addr, 1)` (20_memory.md R39); none is AddressOutOfRange. -/
def State.memRead (s : State) (a : Nat) : Option Byte := if 0xFFF < a then none else some (s.mem.read a)

/-- `MemRead(addr, 2)`, big-endian, for fetch only (R40, R43); none is AddressOutOfRange. -/
def State.memReadWord (s : State) (a : Nat) : Option Word :=
  if 0xFFF < a + 1 then none else some (wordOfBytes (s.mem.read a) (s.mem.read (a + 1)))

/-- `MemWrite(addr, 1, v)` (R41); none is AddressOutOfRange. -/
def State.memWrite (s : State) (a : Nat) (b : Byte) : Option State :=
  if 0xFFF < a then none else some { s with mem := s.mem.write a b }

/-- The bytes of a multi-byte load, the whole range checked first (R106). -/
def State.loadBytes (s : State) (a len : Nat) : Option (List Byte) :=
  if Memory.rangeOk a len then some (s.mem.readBytes a len) else none

/-- The writes of a multi-byte store in rising order, the whole range checked first, so there is no partial store (R106). -/
def State.storeBytes (s : State) (a : Nat) (bs : List Byte) : Option State :=
  if Memory.rangeOk a bs.length then some { s with mem := s.mem.writeBytes a bs } else none

/-! ## Registers -/

/-- `V[i]` read (10_state.md R13). -/
def State.getV (s : State) (r : Reg) : Byte := s.v[r.toNat]'r.isLt

/-- `V[i] <- v` (R13). No register is hardwired. -/
def State.setV (s : State) (r : Reg) (b : Byte) : State := { s with v := s.v.set r.toNat b r.isLt }

/-- `I <- v` (R16). -/
def State.setI (s : State) (w : Word) : State := { s with i := w }

/-- `pc <- target` (R17); PC is never masked. -/
def State.setPc (s : State) (w : Word) : State := { s with pc := w }

/-- `DT <- v` (R18). -/
def State.setDT (s : State) (b : Byte) : State := { s with dt := b }

/-- `ST <- v` (R19). -/
def State.setST (s : State) (b : Byte) : State := { s with st := b }

/-- Consecutive registers loaded from register number k on (43_index_memory.md R112). -/
def State.setRegs : State → Nat → List Byte → State
  | s, _, [] => s
  | s, k, b :: bs => State.setRegs (s.setV (BitVec.ofNat 4 k) b) (k + 1) bs

/-- Phase 2 of the cycle: PC advanced past the instruction before it executes (40_cycle.md R72). -/
def State.advance (s : State) : State := s.setPc (s.pc + 2)

/-- `skip`: 2 more on the advanced PC, with no look at the skipped word (41_control_flow.md R81). -/
def State.skip (s : State) : State := s.setPc (s.pc + 2)

/-- A conditional skip. -/
def State.skipIf (s : State) (taken : Bool) : State := if taken then s.skip else s

/-! ## Stack -/

/-- `Push(w)` (10_state.md R23); none is StackOverflow. -/
def State.push (s : State) (w : Word) : Option State :=
  if h : s.sp.val < 16 then
    some { s with stack := s.stack.set s.sp.val w h, sp := ⟨s.sp.val + 1, by omega⟩ }
  else none

/-- `Pop()` (R24): the popped word and the state after; none is StackUnderflow. The slot keeps its value. -/
def State.pop (s : State) : Option (Word × State) :=
  if h : 0 < s.sp.val then
    some (s.stack[s.sp.val - 1]'(by have := s.sp.isLt; omega), { s with sp := ⟨s.sp.val - 1, by have := s.sp.isLt; omega⟩ })
  else none

/-! ## Framebuffer -/

/-- `FB[px, py]` (R25); no pixel is set outside 64 by 32. -/
def FrameBuffer.pixel (fb : FrameBuffer) (px py : Nat) : Bool :=
  if h : py < 32 then (fb[py]'h).getLsbD px else false

/-- One pixel XORed with 1 (R26). -/
def FrameBuffer.toggle (fb : FrameBuffer) (px py : Nat) : FrameBuffer :=
  if h : py < 32 then fb.set py ((fb[py]'h) ^^^ BitVec.twoPow 64 px) h else fb

/-- All 2048 cells 0 (44_display.md R115). -/
def FrameBuffer.clear : FrameBuffer := Vector.replicate 32 0

/-- One bit of `DrawRow` (R116): bit 7-b of the sprite byte goes to column (cx + b) mod 64 of row cy mod 32 (R118), and a
set pixel it turns off is a collision. -/
def FrameBuffer.drawBit (cx cy : Nat) (byte : Byte) (acc : FrameBuffer × Bool) (b : Nat) : FrameBuffer × Bool :=
  if byte.getLsbD (7 - b) then
    (acc.1.toggle ((cx + b) % 64) (cy % 32), acc.2 || acc.1.pixel ((cx + b) % 64) (cy % 32))
  else acc

/-- `DrawRow(cx, cy, byte) -> collided` (R116). -/
def FrameBuffer.drawRow (fb : FrameBuffer) (cx cy : Nat) (byte : Byte) : FrameBuffer × Bool :=
  (List.range 8).foldl (FrameBuffer.drawBit cx cy byte) (fb, false)

/-- The rows of a sprite drawn from row cy down, and whether any row collided (R117). -/
def FrameBuffer.drawSprite : FrameBuffer → Nat → Nat → List Byte → FrameBuffer × Bool
  | fb, _, _, [] => (fb, false)
  | fb, cx, cy, byte :: rows =>
    let first := fb.drawRow cx cy byte
    let others := FrameBuffer.drawSprite first.1 cx (cy + 1) rows
    (others.1, first.2 || others.2)

/-! ## Keypad -/

/-- `KEY[k]` (10_state.md R27); none is KeyIndexOutOfRange, for no latch exists above 15 (45_keypad_timers.md R120). -/
def State.keyLatch (s : State) (k : Nat) : Option Bool := if h : k < 16 then some (s.key[k]'h) else none

/-- `KEY[k] <- b` for a key 0 to 15; a number above 15 names no key and changes nothing (60_exceptions.md R146, R147). -/
def State.setKey (s : State) (k : Nat) (b : Bool) : State :=
  if h : k < 16 then { s with key := s.key.set k b h } else s

/-! ## The random source -/

/-- `Rand()` (42_load_alu.md R104): the next free byte, and the state in which it has been drawn. -/
def State.rand (s : State) : Byte × State := (Config.randomByte s.draws, { s with draws := s.draws + 1 })

/-! ## The end of a cycle -/

/-- A countdown register after one timer step, never below 0 (40_cycle.md R75). -/
def countdown (t : Byte) : Byte := if t = 0 then 0 else t - 1

/-- Phase 5: the timer step (R75). -/
def State.timerStep (s : State) : State := { s with dt := countdown s.dt, st := countdown s.st }

/-- The copy of all state that a snapshot holds (60_exceptions.md R148). -/
def State.toSnapshot (s : State) : Snapshot where
  pc := s.pc
  i := s.i
  v := s.v
  dt := s.dt
  st := s.st
  stack := s.stack
  sp := s.sp
  mem := s.mem
  key := s.key
  fb := s.fb

/-- Phase 6: the snapshot published (40_cycle.md R76). -/
def State.publish (s : State) : State := { s with snapshot := some s.toSnapshot, snapshots := s.snapshots + 1 }

/-- Phases 5 and 6, which close every completed cycle. -/
def State.finishCycle (s : State) : State := s.timerStep.publish

/-! ## Taking a fault -/

/-- `raise F(info)` (60_exceptions.md R134), applied to the state at the START of the cycle: everything but RUN and FAULT
keeps the value it had then, and the recorded address is the PC of that state. There is no return from it (R137): the
host's start is the one way on. -/
def State.raise (s : State) (cause : Fault) (opcode : Option Word) : State :=
  { s with run := .faulted, fault := some ⟨cause, opcode, some s.pc⟩ }

/-- An instruction i begun in s: its effect if it has one, its one fault (R136) if it has none. -/
def State.orRaise (s : State) (i : Instr) (cause : Fault) : Option State → Result
  | some t => .next t
  | none => .next (s.raise cause (some (encode i)))

end Sys2Proof.Machine
end

