-- ==== Sys2Proof/Machine/Operands.lean ====
section
/-! DEFINITION. The operand forms (30_encoding.md R57, 43_index_memory.md R106): immediates as they stand, jump targets,
the effective address I + k, the register range V[0..x], decimal digits and glyph addresses. -/

namespace Sys2Proof.Machine

/-- The address nnn as a value of PC or I (R57: not an offset). -/
def addrWord (nnn : Addr12) : Word := nnn.setWidth 16

/-- The target of JP V0: a 16-bit sum, at most 0x10FE, not masked (41_control_flow.md R86). -/
def jumpV0Target (nnn : Addr12) (v0 : Byte) : Word := nnn.setWidth 16 + v0.setWidth 16

/-- The base of every data access, a plain natural number that is not reduced (R106). -/
def State.base (s : State) : Nat := s.i.toNat

/-- V[0] to V[x], V[0] first (43_index_memory.md R111). -/
def State.regsUpTo (s : State) (x : Reg) : List Byte :=
  (List.range (x.toNat + 1)).map fun k => s.getV (BitVec.ofNat 4 k)

/-- The hundreds, tens and units of a byte (R110). -/
def bcdDigits (v : Byte) : List Byte :=
  [BitVec.ofNat 8 (v.toNat / 100), BitVec.ofNat 8 (v.toNat / 10 % 10), BitVec.ofNat 8 (v.toNat % 10)]

/-- The address of the glyph of a digit, the same formula for every byte (R109). -/
def glyphAddr (v : Byte) : Word := BitVec.ofNat 16 (5 * v.toNat)

/-- I + V[x] reduced to the 12-bit address space (R108). -/
def indexSum (i : Word) (v : Byte) : Word := BitVec.ofNat 16 ((i.toNat + v.toNat) % 4096)

/-- The latch of the key that V[x] names by its full byte (45_keypad_timers.md R120). -/
def State.keyOf (s : State) (x : Reg) : Option Bool := s.keyLatch (s.getV x).toNat

end Sys2Proof.Machine
end

