-- ==== Sys2Proof/Machine/Control.lean ====
section
/-! DEFINITION. The control transfer instructions (41_control_flow.md). A meaning is applied to the state at the START of
the cycle, advances PC itself (40_cycle.md R72) and then does what its rule says (assumption log 10). -/

namespace Sys2Proof.Machine

/-- `00EE` RET (R82). -/
def execRet (s : State) : Result :=
  s.orRaise .ret .stackUnderflow (s.advance.pop.map fun p => p.2.setPc p.1)

/-- `0nnn` SYS nnn, a plain jump that pushes nothing (R83). -/
def execSys (nnn : Addr12) (s : State) : Result := .next (s.advance.setPc (addrWord nnn))

/-- `1nnn` JP nnn (R84). -/
def execJp (nnn : Addr12) (s : State) : Result := .next (s.advance.setPc (addrWord nnn))

/-- `2nnn` CALL nnn: the advanced PC is pushed (R85). -/
def execCall (nnn : Addr12) (s : State) : Result :=
  s.orRaise (.call nnn) .stackOverflow ((s.advance.push s.advance.pc).map fun t => t.setPc (addrWord nnn))

/-- `Bnnn` JP V0, nnn: the advanced PC is pushed, then PC is nnn + V[0] (R86). -/
def execJpV0 (nnn : Addr12) (s : State) : Result :=
  s.orRaise (.jpV0 nnn) .stackOverflow
    ((s.advance.push s.advance.pc).map fun t => t.setPc (jumpV0Target nnn (s.getV 0)))

/-- `3xkk` SE Vx, kk (R87). -/
def execSeImm (x : Reg) (kk : Byte) (s : State) : Result := .next (s.advance.skipIf (s.getV x == kk))

/-- `4xkk` SNE Vx, kk (R88). -/
def execSneImm (x : Reg) (kk : Byte) (s : State) : Result := .next (s.advance.skipIf (s.getV x != kk))

/-- `5xy0` SE Vx, Vy (R89). -/
def execSeReg (x y : Reg) (s : State) : Result := .next (s.advance.skipIf (s.getV x == s.getV y))

/-- `9xy0` SNE Vx, Vy (R90). -/
def execSneReg (x y : Reg) (s : State) : Result := .next (s.advance.skipIf (s.getV x != s.getV y))

end Sys2Proof.Machine
end

