-- ==== Sys2Proof/Machine/Flags.lean ====
section
/-! DEFINITION. The flag computations; each flag is the byte 0 or 1 stored in VF (10_state.md R14). -/

namespace Sys2Proof.Machine

/-- A condition as the byte VF receives. -/
def flagByte (c : Bool) : Byte := if c then 1 else 0

/-- The carry of an 8-bit sum: 1 iff it exceeds 255 (42_load_alu.md R99). -/
def carryFlag (a b : Byte) : Byte := flagByte (255 < a.toNat + b.toNat)

/-- NOT borrow of a - b: 1 iff a is at least b (R100, R102). -/
def notBorrowFlag (a b : Byte) : Byte := flagByte (b.toNat ≤ a.toNat)

/-- The bit a right shift drops (R101). -/
def lowBit (a : Byte) : Byte := a &&& 1

/-- The bit a left shift drops (R103). -/
def highBit (a : Byte) : Byte := (a >>> 7) &&& 1

/-- Overflow of the 12-bit address space: 1 iff I + V[x] exceeds 0xFFF (43_index_memory.md R108). -/
def indexOverflowFlag (i : Word) (v : Byte) : Byte := flagByte (0xFFF < i.toNat + v.toNat)

end Sys2Proof.Machine
end

