-- ==== Sys2Proof/Machine/Display.lean ====
section
/-! DEFINITION. The display instructions (44_display.md). -/

namespace Sys2Proof.Machine

/-- `00E0` CLS; VF is not written (R115). -/
def execCls (s : State) : Result := .next { s.advance with fb := FrameBuffer.clear }

/-- `Dxyn` DRW Vx, Vy, n: V[x], V[y] and I read once on entry, the range checked before any pixel changes, VF written once
at the end (R117). -/
def execDrw (x y : Reg) (n : Nibble) (s : State) : Result :=
  s.orRaise (.drw x y n) .addressOutOfRange
    ((s.loadBytes s.base n.toNat).map fun rows =>
      let drawn := s.fb.drawSprite (s.getV x).toNat (s.getV y).toNat rows
      State.setV { s.advance with fb := drawn.1 } VF (flagByte drawn.2))

end Sys2Proof.Machine
end

