-- ==== Sys2Proof/Machine/IndexMem.lean ====
section
/-! DEFINITION. The index register and memory instructions (43_index_memory.md). Every address is checked before anything
is written, and I is not moved by an access (R106). -/

namespace Sys2Proof.Machine

/-- `Annn` LD I, nnn (R107). -/
def execLdI (nnn : Addr12) (s : State) : Result := .next (s.advance.setI (addrWord nnn))

/-- `Fx1E` ADD I, Vx: I wraps modulo 4096, then VF is the overflow (R108). -/
def execAddI (x : Reg) (s : State) : Result :=
  .next ((s.advance.setI (indexSum s.i (s.getV x))).setV VF (indexOverflowFlag s.i (s.getV x)))

/-- `Fx29` LD F, Vx (R109). -/
def execLdF (x : Reg) (s : State) : Result := .next (s.advance.setI (glyphAddr (s.getV x)))

/-- `Fx33` LD B, Vx: three decimal digits at I, I+1, I+2 (R110). -/
def execLdB (x : Reg) (s : State) : Result :=
  s.orRaise (.ldB x) .addressOutOfRange (s.advance.storeBytes s.base (bcdDigits (s.getV x)))

/-- `Fx55` LD [I], Vx: V[0] to V[x] stored from I on (R111). -/
def execLdMemVx (x : Reg) (s : State) : Result :=
  s.orRaise (.ldMemVx x) .addressOutOfRange (s.advance.storeBytes s.base (s.regsUpTo x))

/-- `Fx65` LD Vx, [I]: V[0] to V[x] loaded from I on (R112). -/
def execLdVxMem (x : Reg) (s : State) : Result :=
  s.orRaise (.ldVxMem x) .addressOutOfRange
    ((s.loadBytes s.base (x.toNat + 1)).map fun bs => s.advance.setRegs 0 bs)

end Sys2Proof.Machine
end

