-- ==== Sys2Proof/Machine/KeysTimers.lean ====
section
/-! DEFINITION. The keypad and timer instructions (45_keypad_timers.md). The timer step that ends the same cycle is no part
of a meaning: it is phase 5 of the cycle (40_cycle.md R75). -/

namespace Sys2Proof.Machine

/-- `Ex9E` SKP Vx (R121). -/
def execSkp (x : Reg) (s : State) : Result :=
  s.orRaise (.skp x) .keyIndexOutOfRange ((s.keyOf x).map fun down => s.advance.skipIf down)

/-- `ExA1` SKNP Vx (R122). -/
def execSknp (x : Reg) (s : State) : Result :=
  s.orRaise (.sknp x) .keyIndexOutOfRange ((s.keyOf x).map fun down => s.advance.skipIf (!down))

/-- `Fx07` LD Vx, DT (R125). -/
def execLdVxDT (x : Reg) (s : State) : Result := .next (s.advance.setV x s.dt)

/-- `Fx15` LD DT, Vx (R126). -/
def execLdDTVx (x : Reg) (s : State) : Result := .next (s.advance.setDT (s.getV x))

/-- `Fx18` LD ST, Vx (R127). -/
def execLdSTVx (x : Reg) (s : State) : Result := .next (s.advance.setST (s.getV x))

/-- `Fx0A` LD Vx, K, part 1, the issue: the cycle is suspended with PC already advanced (R123, 40_cycle.md R78). Part 2 is
`State.completeWait`. -/
def execLdVxK (x : Reg) (s : State) : Result := .next { s.advance with run := .waitKey x }

end Sys2Proof.Machine
end

