-- ==== Sys2Proof/Machine/LoadAlu.lean ====
section
/-! DEFINITION. The register load and arithmetic instructions (42_load_alu.md). Sums and differences are 8-bit, so they
wrap modulo 256 (R92). The order of the result write and the flag write is that of R105. -/

namespace Sys2Proof.Machine

/-- `6xkk` LD Vx, kk (R93). -/
def execLdImm (x : Reg) (kk : Byte) (s : State) : Result := .next (s.advance.setV x kk)

/-- `7xkk` ADD Vx, kk; no flag (R94). -/
def execAddImm (x : Reg) (kk : Byte) (s : State) : Result := .next (s.advance.setV x (s.getV x + kk))

/-- `8xy0` LD Vx, Vy (R95). -/
def execLdReg (x y : Reg) (s : State) : Result := .next (s.advance.setV x (s.getV y))

/-- `8xy1` OR Vx, Vy (R96). -/
def execOrReg (x y : Reg) (s : State) : Result := .next (s.advance.setV x (s.getV x ||| s.getV y))

/-- `8xy2` AND Vx, Vy (R97). -/
def execAndReg (x y : Reg) (s : State) : Result := .next (s.advance.setV x (s.getV x &&& s.getV y))

/-- `8xy3` XOR Vx, Vy (R98). -/
def execXorReg (x y : Reg) (s : State) : Result := .next (s.advance.setV x (s.getV x ^^^ s.getV y))

/-- `8xy4` ADD Vx, Vy: sum first, carry second, both operands read on entry (R99, R105). -/
def execAddReg (x y : Reg) (s : State) : Result :=
  .next ((s.advance.setV x (s.getV x + s.getV y)).setV VF (carryFlag (s.getV x) (s.getV y)))

/-- `8xy5` SUB Vx, Vy: difference first, NOT borrow second (R100, R105). -/
def execSubReg (x y : Reg) (s : State) : Result :=
  .next ((s.advance.setV x (s.getV x - s.getV y)).setV VF (notBorrowFlag (s.getV x) (s.getV y)))

/-- The shared order of the two shifts: the flag is written first, then V[x] is read again and shifted (R105). -/
def State.flagThenShift (s : State) (x : Reg) (flag : Byte) (shift : Byte → Byte) : State :=
  let t := s.setV VF flag
  t.setV x (shift (t.getV x))

/-- `8xy6` SHR Vx, in place; y is not used (R101, R105). -/
def execShr (x _y : Reg) (s : State) : Result :=
  .next (s.advance.flagThenShift x (lowBit (s.getV x)) fun b => b >>> 1)

/-- `8xy7` SUBN Vx, Vy: difference first, NOT borrow second (R102, R105). -/
def execSubnReg (x y : Reg) (s : State) : Result :=
  .next ((s.advance.setV x (s.getV y - s.getV x)).setV VF (notBorrowFlag (s.getV y) (s.getV x)))

/-- `8xyE` SHL Vx, in place; y is not used (R103, R105). -/
def execShl (x _y : Reg) (s : State) : Result :=
  .next (s.advance.flagThenShift x (highBit (s.getV x)) fun b => b <<< 1)

/-- `Cxkk` RND Vx, kk: one fresh free byte ANDed with kk (R104). -/
def execRnd (x : Reg) (kk : Byte) (s : State) : Result :=
  .next (s.advance.rand.2.setV x (s.advance.rand.1 &&& kk))

end Sys2Proof.Machine
end

