-- ==== Sys2Proof/Machine/Cycle.lean ====
section
/-! DEFINITION. The instruction cycle (40_cycle.md R69), and placing an instruction where it is fetched. -/

namespace Sys2Proof.Machine

/-- Phase 1, fetch (R71); none is the fetch fault AddressOutOfRange. -/
def State.fetch (s : State) : Option Word := s.memReadWord s.pc.toNat

/-- Phases 5 and 6 after phase 4: a completed instruction leaves RUN at Running and is followed by the timer step and the
snapshot (R75, R76); a suspended or faulted cycle ends where it is (R77, R78). -/
def State.closeCycle (t : State) : State := if t.run = .running then t.finishCycle else t

/-- One cycle (R69): fetch, decode, then exec (which advances PC), then phases 5 and 6. -/
def State.cycle (s : State) : Result :=
  match s.fetch with
  | none => .next (s.raise .addressOutOfRange none)
  | some op =>
    match decodeWord op with
    | .reject _ => .next (s.raise .decodeError (some op))
    | .ok i =>
      match exec i s with
      | .next t => .next t.closeCycle
      | .fault f => .fault f
      | .refused r => .refused r

/-- The host's tick: a cycle if RUN is Running, nothing otherwise (R70). -/
def State.tick (s : State) : Result := if s.run = .running then s.cycle else .next s

/-- The address a next instruction can be fetched from: PC, or PROG_BASE where no word lies at PC (R71). -/
def State.fetchPlace (s : State) : Word := if s.pc.toNat ≤ 0xFFE then s.pc else 0x200

/-- The word placed where the next cycle fetches, and a host that ticks next: the state a load of the word by the host
stands for (assumption log 1). -/
def State.placeWord (s : State) (op : Word) : State :=
  { s with
    run := .running
    hostScript := []
    pc := s.fetchPlace
    mem := s.mem.writeBytes s.fetchPlace.toNat (bytesOfWord op) }

end Sys2Proof.Machine
end

