-- ==== Sys2Proof/Machine/HostEvents.lean ====
section
/-! DEFINITION. Construction and the host events (70_reset_and_hazards.md R151 to R155, 60_exceptions.md R144 to R147). -/

namespace Sys2Proof.Machine

/-- The open parameters with the spec's defaults (00_scope.md R7; assumption logs 2 to 4). -/
def defaultParams : Config.Params where
  font := Memory.defaultFont
  background := List.replicate 4096 0
  stackInit := Vector.replicate 16 0

/-- Construction (R151): the memory background, then the font, no key held, RUN Idle. The registers and the framebuffer are
unspecified and unobservable before start; the model holds the launch values (assumption log 14). -/
def State.construct (p : Config.Params) : State :=
  { State.reset with
    run := .idle
    stack := p.stackInit
    mem := Memory.writeBytes (Memory.writeBytes [] 0 (p.background.take 4096)) 0 (p.font.take 80) }

/-- The first steps of start, which are taken for every program (R152, R155). -/
def State.resetForStart (s : State) : State :=
  { s with
    pc := 0x200
    i := 0
    dt := 0
    st := 0
    v := Vector.replicate 16 0
    sp := 0
    fb := FrameBuffer.clear
    fault := none }

/-- `start(program)` in Idle, Stopped or Faulted (R152); too long a program is the fault with neither opcode nor address,
and no byte is written (R155). -/
def State.startProgram (s : State) (program : List Byte) : State :=
  if Config.progMax < program.length then
    { s.resetForStart with run := .faulted, fault := some ⟨.addressOutOfRange, none, none⟩ }
  else
    { s.resetForStart with run := .running, mem := s.mem.writeBytes Config.progBase program }

/-- Whether start has a meaning: the loop is neither running nor waiting (R144). -/
def RunState.startable : RunState → Bool
  | .idle => true
  | .running => false
  | .waitKey _ => false
  | .stopped => true
  | .faulted => true

/-- `start(program)` (R144). -/
def State.hostStart (s : State) (program : List Byte) : Result :=
  if s.run.startable then .next (s.startProgram program) else .refused .startWhileActive

/-- `stop()` (R145): an unfinished wait is abandoned. -/
def State.hostStop (s : State) : State :=
  match s.run with
  | .running => { s with run := .stopped }
  | .waitKey _ => { s with run := .stopped }
  | _ => s

/-- `Fx0A`, part 2, the completion of a wait for register x by key k (45_keypad_timers.md R124): the latch, the register,
then phases 5 and 6 of the suspended cycle, then Running. -/
def State.completeWait (s : State) (x : Reg) (k : Nat) : State :=
  { ((s.setKey k true).setV x (BitVec.ofNat 8 k)).finishCycle with run := .running }

/-- `press(k)` (60_exceptions.md R146). -/
def State.hostPress (s : State) (k : Nat) : State :=
  if 15 < k then s
  else
    match s.run with
    | .waitKey x => s.completeWait x k
    | _ => s.setKey k true

/-- `release(k)` (R147). -/
def State.hostRelease (s : State) (k : Nat) : State := if 15 < k then s else s.setKey k false

/-- One host event, between two cycles (40_cycle.md R70). -/
def State.deliver (s : State) : HostEvent → Result
  | .tick => s.tick
  | .start program => s.hostStart program
  | .stop => .next s.hostStop
  | .press k => .next (s.hostPress k)
  | .release k => .next (s.hostRelease k)

/-- The next action of the host: the oldest event of its script, a tick when the script is empty (assumption log 6). -/
def State.nextEvent (s : State) : HostEvent × State :=
  match s.hostScript with
  | [] => (.tick, s)
  | e :: rest => (e, { s with hostScript := rest })

end Sys2Proof.Machine
end

