-- ==== Sys2Proof/Machine/Step.lean ====
section
/-! DEFINITION. One step of the whole machine: the host's next action delivered (00_scope.md R8, 60_exceptions.md R150). -/

namespace Sys2Proof.Machine

/-- One step: the next host event takes effect; a tick runs one cycle of the interpreter (40_cycle.md R69, R70). -/
def step (s : State) : Host.Outcome State Fault Refusal := s.nextEvent.2.deliver s.nextEvent.1

/-- s with the instruction of the table's bits placed where step fetches its next instruction. -/
def State.withFetchWord (s : State) (nbits w : Nat) : State := s.placeWord (tableWord nbits w)

end Sys2Proof.Machine
end

