-- ==== Sys2Proof/Safety.lean ====
section
/-! DEFINITION. The terms claims use: parts of the state and frames, the invariant of the machine, the pixels a sprite
covers, and the parts each instruction may write. -/

namespace Sys2Proof.Machine

/-- The parts of the state a frame speaks of. -/
inductive Part where
  | v | i | pc | dt | st | sp | stack | fb | key | run | fault | mem | snapshot | draws | hostScript
  deriving DecidableEq, Repr

/-- `Frame w s t`: from s to t every part outside the list w is unchanged; memory is compared byte by byte. -/
def Frame (w : List Part) (s t : State) : Prop :=
  (Part.v ∉ w → ∀ r, t.getV r = s.getV r) ∧
  (Part.i ∉ w → t.i = s.i) ∧
  (Part.pc ∉ w → t.pc = s.pc) ∧
  (Part.dt ∉ w → t.dt = s.dt) ∧
  (Part.st ∉ w → t.st = s.st) ∧
  (Part.sp ∉ w → t.sp = s.sp) ∧
  (Part.stack ∉ w → t.stack = s.stack) ∧
  (Part.fb ∉ w → t.fb = s.fb) ∧
  (Part.key ∉ w → t.key = s.key) ∧
  (Part.run ∉ w → t.run = s.run) ∧
  (Part.fault ∉ w → t.fault = s.fault) ∧
  (Part.mem ∉ w → ∀ a, t.memRead a = s.memRead a) ∧
  (Part.snapshot ∉ w → t.snapshot = s.snapshot ∧ t.snapshots = s.snapshots) ∧
  (Part.draws ∉ w → t.draws = s.draws) ∧
  (Part.hostScript ∉ w → t.hostScript = s.hostScript)

/-- Every byte of memory outside the len bytes from a on reads as before. -/
def MemSameOutside (a len : Nat) (s t : State) : Prop :=
  ∀ c, ¬(a ≤ c ∧ c < a + len) → t.memRead c = s.memRead c

/-- The parts an instruction may write when it raises no fault (10_state.md R15, and the rule of each instruction). The rows
of Fx07, Fx15 and Fx18 rest on the timer directions (D11, assumption log 24), the unmoved I of Fx55 and Fx65 on D23
(assumption log 32). -/
def partsWritten : Instr → List Part
  | .cls => [.pc, .fb]
  | .ret => [.pc, .sp]
  | .sys _ | .jp _ => [.pc]
  | .call _ | .jpV0 _ => [.pc, .sp, .stack]
  | .seImm _ _ | .sneImm _ _ | .seReg _ _ | .sneReg _ _ | .skp _ | .sknp _ => [.pc]
  | .ldImm _ _ | .addImm _ _ | .ldReg _ _ | .orReg _ _ | .andReg _ _ | .xorReg _ _ => [.pc, .v]
  | .addReg _ _ | .subReg _ _ | .shr _ _ | .subnReg _ _ | .shl _ _ => [.pc, .v]
  | .ldI _ | .ldF _ => [.pc, .i]
  | .addI _ => [.pc, .i, .v]
  | .rnd _ _ => [.pc, .v, .draws]
  | .drw _ _ _ => [.pc, .v, .fb]
  | .ldVxDT _ | .ldVxMem _ => [.pc, .v]
  | .ldDTVx _ => [.pc, .dt]
  | .ldSTVx _ => [.pc, .st]
  | .ldVxK _ => [.pc, .run]
  | .ldB _ | .ldMemVx _ => [.pc, .mem]

/-- The live stack entries of two states are the same (10_state.md R21). -/
def SameLiveStack (s t : State) : Prop :=
  s.sp = t.sp ∧ ∀ k : Fin 16, k.val < s.sp.val → s.stack[k] = t.stack[k]

/-- The invariant of the machine. The bounds on I, PC and the return addresses are those of 10_state.md R35; the fault record
is R30; the canonical form of memory and the kept snapshot with its count are the model's own (assumption logs 15 and 9).
It is kept by every step from every state that has it, whatever the host does. -/
structure State.Inv (s : State) : Prop where
  /-- Memory is in canonical form, every cell inside 0x000 to 0xFFF (assumption log 15). -/
  memWf : s.mem.wf
  /-- I is at most 0xFFF. -/
  index : s.i.toNat ≤ 0xFFF
  /-- PC is at most 0x10FE, so the 16-bit PC never wraps. -/
  counter : s.pc.toNat ≤ 0x10FE
  /-- Every live return address is at most 0x1000. -/
  returns : ∀ k : Fin 16, k.val < s.sp.val → s.stack[k].toNat ≤ 0x1000
  /-- A fault is recorded exactly while RUN is Faulted (R30). -/
  faultRecord : s.run = .faulted ↔ s.fault.isSome = true
  /-- There is a last snapshot exactly when one has been published (assumption log 9). -/
  published : s.snapshot.isSome = true ↔ 0 < s.snapshots

/-- The pixel (px, py) lies under a sprite bit of 1 of DRW Vx, Vy, n in s (44_display.md R117, R118). -/
def SpriteCovers (s : State) (x y : Reg) (n : Nibble) (px py : Nat) : Prop :=
  ∃ row b : Nat, row < n.toNat ∧ b < 8 ∧ (s.mem.read (s.base + row)).getLsbD (7 - b) = true ∧
    ((s.getV x).toNat + b) % 64 = px ∧ ((s.getV y).toNat + row) % 32 = py

/-- The sprite of DRW Vx, Vy, n lies in memory: no byte of it is above 0xFFF (R117). -/
def SpriteInMemory (s : State) (n : Nibble) : Prop := n.toNat = 0 ∨ s.base + n.toNat - 1 ≤ 0xFFF

/-- The state in which instruction i, begun in s, has raised its fault (60_exceptions.md R134): only RUN and FAULT differ
from s, and the record holds the cause, the word of i and the address it was fetched from. -/
def Raised (s : State) (cause : Fault) (i : Instr) (t : State) : Prop :=
  t = { s with run := .faulted, fault := some ⟨cause, some (encode i), some s.pc⟩ }

/-! ### What one instruction does to the state, and when it faults -/

/-- Whether an instruction may write register r (the "written by" column of 10_state.md R15; Fx0A writes its register only at
its completion, 45_keypad_timers.md R124, which is no part of exec). The row of Fx07 rests on D11 (assumption log 24), the
untouched VF of 7xkk and 8xy0 to 8xy3 on D24 (assumption log 32). -/
def mayWriteRegister : Instr → Reg → Bool
  | .ldImm x _, r | .addImm x _, r | .rnd x _, r | .ldVxDT x, r => r == x
  | .ldReg x _, r | .orReg x _, r | .andReg x _, r | .xorReg x _, r => r == x
  | .addReg x _, r | .subReg x _, r | .shr x _, r | .subnReg x _, r | .shl x _, r => r == x || r == VF
  | .drw _ _ _, r | .addI _, r => r == VF
  | .ldVxMem x, r => decide (r.toNat ≤ x.toNat)
  | .cls, _ | .ret, _ | .sys _, _ | .jp _, _ | .call _, _ | .jpV0 _, _ | .ldI _, _ => false
  | .seImm _ _, _ | .sneImm _ _, _ | .seReg _ _, _ | .sneReg _ _, _ | .skp _, _ | .sknp _, _ => false
  | .ldDTVx _, _ | .ldSTVx _, _ | .ldVxK _, _ | .ldF _, _ | .ldB _, _ | .ldMemVx _, _ => false

/-- How many bytes an instruction stores, the first at `State.base` (43_index_memory.md R110, R111; no other instruction
stores, 20_memory.md R41). -/
def storedBytes : Instr → Nat
  | .ldB _ => 3
  | .ldMemVx x => x.toNat + 1
  | .cls | .ret | .sys _ | .jp _ | .call _ | .jpV0 _ | .seImm _ _ | .sneImm _ _ | .seReg _ _ | .sneReg _ _ => 0
  | .ldImm _ _ | .addImm _ _ | .ldReg _ _ | .orReg _ _ | .andReg _ _ | .xorReg _ _ | .addReg _ _ | .subReg _ _ => 0
  | .shr _ _ | .subnReg _ _ | .shl _ _ | .ldI _ | .rnd _ _ | .drw _ _ _ | .skp _ | .sknp _ | .ldVxDT _ => 0
  | .ldDTVx _ | .ldSTVx _ | .ldVxK _ | .addI _ | .ldF _ | .ldVxMem _ => 0

/-- From s to t instruction i wrote only what its rule lets it write: its parts of the state, of the registers those of R15,
of the stack the slot SP alone, of memory the bytes it stores from the address in I on. -/
def WritesOnlyItsParts (i : Instr) (s t : State) : Prop :=
  Frame (partsWritten i) s t ∧
  (∀ r, mayWriteRegister i r = false → t.getV r = s.getV r) ∧
  (∀ k : Fin 16, k.val ≠ s.sp.val → t.stack[k] = s.stack[k]) ∧
  MemSameOutside s.base (storedBytes i) s t

/-- The fault that an instruction raises when begun in s, by the one fault condition the spec gives it, if any
(60_exceptions.md R136, R130 to R133; 44_display.md R117; 43_index_memory.md R106). -/
def faultOf : Instr → State → Option Fault
  | .ret, s => if s.sp = 0 then some .stackUnderflow else none
  | .call _, s | .jpV0 _, s => if s.sp = 16 then some .stackOverflow else none
  | .drw _ _ n, s => if 0 < n.toNat ∧ 0xFFF < s.i.toNat + n.toNat - 1 then some .addressOutOfRange else none
  | .ldB _, s => if 0xFFF < s.i.toNat + 2 then some .addressOutOfRange else none
  | .ldMemVx x, s | .ldVxMem x, s => if 0xFFF < s.i.toNat + x.toNat then some .addressOutOfRange else none
  | .skp x, s | .sknp x, s => if 15 < (s.getV x).toNat then some .keyIndexOutOfRange else none
  | .cls, _ | .sys _, _ | .jp _, _ | .seImm _ _, _ | .sneImm _ _, _ | .seReg _ _, _ | .sneReg _ _, _ => none
  | .ldImm _ _, _ | .addImm _ _, _ | .ldReg _ _, _ | .orReg _ _, _ | .andReg _ _, _ | .xorReg _ _, _ => none
  | .addReg _ _, _ | .subReg _ _, _ | .shr _ _, _ | .subnReg _ _, _ | .shl _ _, _ | .rnd _ _, _ => none
  | .ldI _, _ | .addI _, _ | .ldF _, _ | .ldVxDT _, _ | .ldDTVx _, _ | .ldSTVx _, _ | .ldVxK _, _ => none

/-- Where PC goes when instruction i, begun in s, raises no fault: past the instruction, past the next one when a skip is
taken, or to the target of a control transfer (40_cycle.md R72, 41_control_flow.md R81 to R90, 45_keypad_timers.md R121,
R122). -/
def NextPc (i : Instr) (s : State) (p : Word) : Prop :=
  match i with
  | .ret => ∃ h : 0 < s.sp.val, p = s.stack[s.sp.val - 1]'(by have := s.sp.isLt; omega)
  | .sys nnn | .jp nnn | .call nnn => p.toNat = nnn.toNat
  | .jpV0 nnn => p.toNat = nnn.toNat + (s.getV 0).toNat
  | .seImm x kk => p = if s.getV x = kk then s.pc + 4 else s.pc + 2
  | .sneImm x kk => p = if s.getV x ≠ kk then s.pc + 4 else s.pc + 2
  | .seReg x y => p = if s.getV x = s.getV y then s.pc + 4 else s.pc + 2
  | .sneReg x y => p = if s.getV x ≠ s.getV y then s.pc + 4 else s.pc + 2
  | .skp x => p = if s.keyLatch (s.getV x).toNat = some true then s.pc + 4 else s.pc + 2
  | .sknp x => p = if s.keyLatch (s.getV x).toNat = some false then s.pc + 4 else s.pc + 2
  | .cls | .ldImm _ _ | .addImm _ _ | .ldReg _ _ | .orReg _ _ | .andReg _ _ | .xorReg _ _ => p = s.pc + 2
  | .addReg _ _ | .subReg _ _ | .shr _ _ | .subnReg _ _ | .shl _ _ | .rnd _ _ | .drw _ _ _ => p = s.pc + 2
  | .ldI _ | .addI _ | .ldF _ | .ldB _ | .ldMemVx _ | .ldVxMem _ => p = s.pc + 2
  | .ldVxDT _ | .ldDTVx _ | .ldSTVx _ | .ldVxK _ => p = s.pc + 2

end Sys2Proof.Machine
end

