-- ==== Sys2Proof/Certificates/Slice0/Obligations.lean ====
section
/-! DEFINITION. The statements about the machine, one per group of rules of spec/. Each docstring names the rule it
formalises and, where it rests on a decision of the spec or a choice of the model, says so. -/

open Sys2Proof Sys2Proof.Machine

/-! ## Encoding (30_encoding.md) -/

/-- Decode and encode agree on all 35 instructions, from words and from bytes (R58, R60). -/
def Obligations.EncodedInstructionsDecodeBack : Prop :=
  ∀ i : Instr, WellFormed i →
    decodeWord (encode i) = .ok i ∧ ∀ rest, decodeBytes (bytesOfWord (encode i) ++ rest) = .ok i rest

/-- The other direction: a word that decodes is the word of its instruction, so no two words share one (R58, R66). -/
def Obligations.DecodedWordsEncodeBack : Prop :=
  ∀ (w : Word) (i : Instr), decodeWord w = .ok i → WellFormed i ∧ encode i = w

/-- The illegal words are exactly those of the table of R65. The rows of families 5, 9 and E rest on the spec's decision
D8. -/
def Obligations.IllegalWordsAreTheListedOnes : Prop :=
  ∀ w : Word, (∃ why, decodeWord w = .reject why) ↔
    (w.toNat / 4096 = 0x5 ∧ w.toNat % 16 ≠ 0) ∨
    (w.toNat / 4096 = 0x9 ∧ w.toNat % 16 ≠ 0) ∨
    (w.toNat / 4096 = 0x8 ∧ w.toNat % 16 ∈ [0x8, 0x9, 0xA, 0xB, 0xC, 0xD, 0xF]) ∨
    (w.toNat / 4096 = 0xE ∧ w.toNat % 256 ∉ [0x9E, 0xA1]) ∨
    (w.toNat / 4096 = 0xF ∧ w.toNat % 256 ∉ [0x07, 0x0A, 0x15, 0x18, 0x1E, 0x29, 0x33, 0x55, 0x65])

/-- Families 8 and F are selected by the low nibble and the low byte, each defined value its own instruction (R61, R64). -/
def Obligations.FamiliesEightAndFSelectors : Prop :=
  (∀ x y : Reg,
    decodeWord (0x8#4 ++ x ++ y ++ 0x0#4) = .ok (.ldReg x y) ∧ decodeWord (0x8#4 ++ x ++ y ++ 0x1#4) = .ok (.orReg x y) ∧
    decodeWord (0x8#4 ++ x ++ y ++ 0x2#4) = .ok (.andReg x y) ∧ decodeWord (0x8#4 ++ x ++ y ++ 0x3#4) = .ok (.xorReg x y) ∧
    decodeWord (0x8#4 ++ x ++ y ++ 0x4#4) = .ok (.addReg x y) ∧ decodeWord (0x8#4 ++ x ++ y ++ 0x5#4) = .ok (.subReg x y) ∧
    decodeWord (0x8#4 ++ x ++ y ++ 0x6#4) = .ok (.shr x y) ∧ decodeWord (0x8#4 ++ x ++ y ++ 0x7#4) = .ok (.subnReg x y) ∧
    decodeWord (0x8#4 ++ x ++ y ++ 0xE#4) = .ok (.shl x y) ∧
    ∀ n : Nibble, n.toNat ∈ [0x8, 0x9, 0xA, 0xB, 0xC, 0xD, 0xF] → ∃ why, decodeWord (0x8#4 ++ x ++ y ++ n) = .reject why) ∧
  (∀ x : Reg,
    decodeWord (0xF#4 ++ x ++ 0x07#8) = .ok (.ldVxDT x) ∧ decodeWord (0xF#4 ++ x ++ 0x0A#8) = .ok (.ldVxK x) ∧
    decodeWord (0xF#4 ++ x ++ 0x15#8) = .ok (.ldDTVx x) ∧ decodeWord (0xF#4 ++ x ++ 0x18#8) = .ok (.ldSTVx x) ∧
    decodeWord (0xF#4 ++ x ++ 0x1E#8) = .ok (.addI x) ∧ decodeWord (0xF#4 ++ x ++ 0x29#8) = .ok (.ldF x) ∧
    decodeWord (0xF#4 ++ x ++ 0x33#8) = .ok (.ldB x) ∧ decodeWord (0xF#4 ++ x ++ 0x55#8) = .ok (.ldMemVx x) ∧
    decodeWord (0xF#4 ++ x ++ 0x65#8) = .ok (.ldVxMem x) ∧
    ∀ kk : Byte, kk.toNat ∉ [0x07, 0x0A, 0x15, 0x18, 0x1E, 0x29, 0x33, 0x55, 0x65] →
      ∃ why, decodeWord (0xF#4 ++ x ++ kk) = .reject why)

/-- Ten words written out in the spec decode to the instruction they stand for (R60): the three of the worked example S9, six
of the decode vectors V-E1 to V-E10, and the draw of V-D1 (95_test_vectors.md). -/
def Obligations.SpecWordsDecode : Prop :=
  decodeWord 0x6005 = .ok (.ldImm 0 5) ∧ decodeWord 0x6103 = .ok (.ldImm 1 3) ∧ decodeWord 0x8014 = .ok (.addReg 0 1) ∧
  decodeWord 0x00E0 = .ok .cls ∧ decodeWord 0x00EE = .ok .ret ∧ decodeWord 0x01E0 = .ok (.sys 0x1E0) ∧
  decodeWord 0x5120 = .ok (.seReg 1 2) ∧ decodeWord 0xE39E = .ok (.skp 3) ∧ decodeWord 0xF30A = .ok (.ldVxK 3) ∧
  decodeWord 0xD015 = .ok (.drw 0 1 5)

/-! ## Memory and stack primitives (20_memory.md, 10_state.md) -/

/-- MemRead of one byte, MemRead of a big-endian word, MemWrite of one byte; none is AddressOutOfRange (R39, R40, R41). -/
def Obligations.ByteAndWordAccesses : Prop :=
  ∀ (s : State) (a : Nat),
    (0xFFF < a → s.memRead a = none) ∧
    (a ≤ 0xFFF → ∃ b, s.memRead a = some b) ∧
    (0xFFF < a + 1 → s.memReadWord a = none) ∧
    (∀ hi lo, s.memRead a = some hi → s.memRead (a + 1) = some lo →
      ∃ w, s.memReadWord a = some w ∧ w.toNat = hi.toNat * 256 + lo.toNat) ∧
    (∀ b, 0xFFF < a → s.memWrite a b = none) ∧
    (∀ b, a ≤ 0xFFF → ∃ t, s.memWrite a b = some t ∧ t.memRead a = some b ∧ MemSameOutside a 1 s t ∧ Frame [.mem] s t)

/-- Push and Pop: overflow at SP = 16, underflow at SP = 0, else the slot and SP move as written (R23, R24). -/
def Obligations.PushAndPop : Prop :=
  ∀ (s : State) (w : Word),
    (s.sp = 16 → s.push w = none) ∧
    (∀ h : s.sp.val < 16, ∃ t, s.push w = some t ∧ t.stack[s.sp.val] = w ∧ t.sp.val = s.sp.val + 1 ∧
      (∀ k : Fin 16, k.val ≠ s.sp.val → t.stack[k] = s.stack[k]) ∧ Frame [.sp, .stack] s t) ∧
    (s.sp = 0 → s.pop = none) ∧
    (∀ h : 0 < s.sp.val, ∃ t, s.pop = some (s.stack[s.sp.val - 1], t) ∧ t.sp.val = s.sp.val - 1 ∧ Frame [.sp] s t)

/-! ## The step and the cycle (40_cycle.md) -/

/-- The model's own way to hold the host's choices (assumption log 6): the script is delivered oldest first, and an empty
script is a tick. -/
def Obligations.HostScriptIsDeliveredInOrder : Prop :=
  ∀ s : State,
    (s.hostScript = [] → step s = s.tick) ∧
    (∀ e rest, s.hostScript = e :: rest → step s = State.deliver { s with hostScript := rest } e)

/-- When the bytes at PC decode to i, a tick of the running machine is exec of i, followed by the timer step and the
snapshot when the instruction completed (R69, R73 to R76). -/
def Obligations.StepRunsTheDecodedInstruction : Prop :=
  ∀ (s t : State) (i : Instr) (hi lo : Byte), s.run = .running → s.hostScript = [] →
    s.memRead s.pc.toNat = some hi → s.memRead (s.pc.toNat + 1) = some lo → decodeBytes [hi, lo] = .ok i [] →
    exec i s = .next t →
    step s = .next (if t.run = .running then t.timerStep.publish else t)

/-- Every instruction, in every state, answers a next state, and which: where its one fault condition holds, the fault entry
with that cause; otherwise its effect, PC gone where its rule says (R72, R81 to R90, R121, R122) and nothing written outside
the parts its rule names (R15, R134, R136). That a fatal fault is a NEXT state is the model's choice (assumption log 7), as
are exec's advance of PC (log 10) and the fields of the model's own in the frame (logs 5, 6, 9). The fault conditions and the
entry rest on the spec's decisions D1, D3, D6, D9, D10, D12 and D13, the targets and skips on D4, D17 and D31, the parts
written on the timer directions D11, taken from general knowledge (PRESUMED, assumption log 24), and on the unmoved I of Fx55
and Fx65, D23 (assumption log 32). -/
def Obligations.EveryInstructionAnswersANextState : Prop :=
  ∀ (i : Instr) (s : State), ∃ t, exec i s = .next t ∧
    (faultOf i s = none → NextPc i s t.pc ∧ Frame (partsWritten i) s t) ∧
    (∀ cause, faultOf i s = some cause → Raised s cause i t)

/-- A fetch above 0xFFE is the fatal fault AddressOutOfRange with no opcode, and nothing else changes (R71; rests on the
spec's decisions D1 and D12). -/
def Obligations.FetchAboveMemoryFaults : Prop :=
  ∀ s : State, s.run = .running → s.hostScript = [] → 0xFFE < s.pc.toNat →
    step s = .next { s with run := .faulted, fault := some ⟨.addressOutOfRange, none, some s.pc⟩ }

/-- An illegal word is the fatal fault DecodeError with the word and its fetch address, and nothing else changes (R73, R129;
rests on the spec's decision D12). -/
def Obligations.IllegalWordFaults : Prop :=
  ∀ (s : State) (op : Word) (why : DecodeReject), s.run = .running → s.hostScript = [] →
    s.memReadWord s.pc.toNat = some op → decodeWord op = .reject why →
    step s = .next { s with run := .faulted, fault := some ⟨.decodeError, some op, some s.pc⟩ }

/-- After a completed instruction each timer falls by 1 and stops at 0, and one snapshot of the resulting state is
published; a suspended or faulted cycle does neither (R75 to R78; the snapshot rests on the spec's decision D27, that it is
kept and counted is the model's choice, assumption log 9). -/
def Obligations.CompletedCycleStepsTimersAndPublishes : Prop :=
  ∀ (s u : State) (op : Word) (i : Instr), s.run = .running → s.hostScript = [] →
    s.memReadWord s.pc.toNat = some op → decodeWord op = .ok i → exec i s = .next u →
    ∃ t, step s = .next t ∧
      (u.run = .running → t.dt.toNat = u.dt.toNat - 1 ∧ t.st.toNat = u.st.toNat - 1 ∧
        t.snapshot = some t.toSnapshot ∧ t.snapshots = u.snapshots + 1 ∧ Frame [.dt, .st, .snapshot] u t) ∧
      (u.run ≠ .running → t = u)

/-- Faults are precise: a cycle that ends Faulted changes RUN and FAULT alone, and records the address it fetched from
(R77, R134; rests on the spec's decision D12). -/
def Obligations.FaultsArePrecise : Prop :=
  ∀ s t : State, s.run = .running → s.hostScript = [] → step s = .next t → t.run = .faulted →
    ∃ cause opcode, t = { s with run := .faulted, fault := some ⟨cause, opcode, some s.pc⟩ }

/-- Which instruction can raise which fault, and on what condition; all the others raise none (R128, R136; rests on the
spec's decisions D1, D9 and D12). -/
def Obligations.FaultCausesByInstruction : Prop :=
  ∀ (i : Instr) (s t : State), s.run = .running → exec i s = .next t → t.run = .faulted →
    match i with
    | .ret => s.sp = 0 ∧ Raised s .stackUnderflow i t
    | .call _ => s.sp = 16 ∧ Raised s .stackOverflow i t
    | .jpV0 _ => s.sp = 16 ∧ Raised s .stackOverflow i t
    | .drw _ _ n => 0 < n.toNat ∧ 0xFFF < s.base + n.toNat - 1 ∧ Raised s .addressOutOfRange i t
    | .ldB _ => 0xFFF < s.base + 2 ∧ Raised s .addressOutOfRange i t
    | .ldMemVx x => 0xFFF < s.base + x.toNat ∧ Raised s .addressOutOfRange i t
    | .ldVxMem x => 0xFFF < s.base + x.toNat ∧ Raised s .addressOutOfRange i t
    | .skp x => 15 < (s.getV x).toNat ∧ Raised s .keyIndexOutOfRange i t
    | .sknp x => 15 < (s.getV x).toNat ∧ Raised s .keyIndexOutOfRange i t
    | _ => False

/-- No cycle runs in Idle, WaitKey, Stopped and Faulted: a tick changes nothing (R70, 95_test_vectors.md V-X2). -/
def Obligations.NoCycleUnlessRunning : Prop :=
  ∀ s : State, s.run ≠ .running → s.hostScript = [] → step s = .next s

/-! ## Control transfer (41_control_flow.md) -/

/-- RET pops into PC, or is StackUnderflow on an empty stack with nothing changed (R82; the fault entry rests on D12). -/
def Obligations.ReturnPopsOrUnderflows : Prop :=
  ∀ s : State,
    (∀ h : 0 < s.sp.val, ∃ t, exec .ret s = .next t ∧ t.pc = s.stack[s.sp.val - 1] ∧ t.sp.val = s.sp.val - 1 ∧
      Frame [.pc, .sp] s t) ∧
    (s.sp = 0 → ∃ t, exec .ret s = .next t ∧ Raised s .stackUnderflow .ret t)

/-- JP, family 1, loads nnn into PC and does nothing else: a jump to 0xFFF leaves no word to fetch, a jump to its own address
leaves the state as it was (R84). -/
def Obligations.JumpLoadsTheAddress : Prop :=
  ∀ (nnn : Addr12) (s : State), decodeWord (0x1#4 ++ nnn) = .ok (.jp nnn) ∧
    ∃ t, exec (.jp nnn) s = .next t ∧ t.pc.toNat = nnn.toNat ∧ Frame [.pc] s t ∧
      (nnn = 0xFFF → t.fetch = none) ∧ (nnn.toNat = s.pc.toNat → t = s)

/-- SYS, every word of family 0 but CLS and RET, is a plain jump to nnn; nothing is pushed (R83, R59; that the two words are
matched first is the spec's decision D30). -/
def Obligations.SysIsAPlainJump : Prop :=
  ∀ (nnn : Addr12) (s : State),
    (nnn ≠ 0x0E0 → nnn ≠ 0x0EE → decodeWord (0x0#4 ++ nnn) = .ok (.sys nnn)) ∧
    ∃ t, exec (.sys nnn) s = .next t ∧ t.pc.toNat = nnn.toNat ∧ Frame [.pc] s t

/-- CALL pushes the address of the instruction after it and jumps, or is StackOverflow on a full stack with nothing changed
(R85, R130; the fault entry rests on D12). -/
def Obligations.CallPushesAndJumps : Prop :=
  ∀ (nnn : Addr12) (s : State),
    (∀ h : s.sp.val < 16, ∃ t, exec (.call nnn) s = .next t ∧ t.pc.toNat = nnn.toNat ∧ t.stack[s.sp.val] = s.pc + 2 ∧
      t.sp.val = s.sp.val + 1 ∧ (∀ k : Fin 16, k.val ≠ s.sp.val → t.stack[k] = s.stack[k]) ∧
      Frame [.pc, .sp, .stack] s t) ∧
    (s.sp = 16 → ∃ t, exec (.call nnn) s = .next t ∧ Raised s .stackOverflow (.call nnn) t)

/-- JP V0 pushes the address of the instruction after it and jumps to nnn + V[0], not masked; StackOverflow on a full stack
(R86; the unmasked sum is the spec's decision D4, the fault entry D12). -/
def Obligations.JumpV0PushesAndAdds : Prop :=
  ∀ (nnn : Addr12) (s : State),
    (∀ h : s.sp.val < 16, ∃ t, exec (.jpV0 nnn) s = .next t ∧ t.pc.toNat = nnn.toNat + (s.getV 0).toNat ∧
      t.stack[s.sp.val] = s.pc + 2 ∧ t.sp.val = s.sp.val + 1 ∧
      (∀ k : Fin 16, k.val ≠ s.sp.val → t.stack[k] = s.stack[k]) ∧ Frame [.pc, .sp, .stack] s t) ∧
    (s.sp = 16 → ∃ t, exec (.jpV0 nnn) s = .next t ∧ Raised s .stackOverflow (.jpV0 nnn) t)

/-- A CALL followed by a RET, whatever ran in between that left the stack and SP alone, resumes at the instruction after the
CALL with the stack as it was (R82, R85, 95_test_vectors.md S5). -/
def Obligations.CallThenReturnComesBack : Prop :=
  ∀ (nnn : Addr12) (s m : State), s.sp.val < 16 →
    (∀ t, exec (.call nnn) s = .next t → m.stack = t.stack ∧ m.sp = t.sp) →
    ∃ u, exec .ret m = .next u ∧ u.pc = s.pc + 2 ∧ SameLiveStack s u ∧ Frame [.pc, .sp] m u

/-- The four skips on registers: PC 4 past the instruction's address when taken, 2 past it when not, and nothing else
changes (R87 to R90; that a taken skip adds 2 and looks at nothing is the spec's decision D31). -/
def Obligations.SkipsCompareRegisters : Prop :=
  ∀ (x y : Reg) (kk : Byte) (s : State),
    decodeWord (0x3#4 ++ x ++ kk) = .ok (.seImm x kk) ∧ decodeWord (0x4#4 ++ x ++ kk) = .ok (.sneImm x kk) ∧
    (∃ t, exec (.seImm x kk) s = .next t ∧ t.pc = (if s.getV x = kk then s.pc + 4 else s.pc + 2) ∧ Frame [.pc] s t) ∧
    (∃ t, exec (.sneImm x kk) s = .next t ∧ t.pc = (if s.getV x ≠ kk then s.pc + 4 else s.pc + 2) ∧ Frame [.pc] s t) ∧
    (∃ t, exec (.seReg x y) s = .next t ∧ t.pc = (if s.getV x = s.getV y then s.pc + 4 else s.pc + 2) ∧ Frame [.pc] s t) ∧
    (∃ t, exec (.sneReg x y) s = .next t ∧ t.pc = (if s.getV x ≠ s.getV y then s.pc + 4 else s.pc + 2) ∧ Frame [.pc] s t)

/-! ## Load and arithmetic (42_load_alu.md) -/

/-- LD Vx, kk, family 6, writes V[x], VF like any other, and no other register (R93). -/
def Obligations.LoadImmediateWritesOneRegister : Prop :=
  ∀ (x : Reg) (kk : Byte) (s : State), decodeWord (0x6#4 ++ x ++ kk) = .ok (.ldImm x kk) ∧
    ∃ t, exec (.ldImm x kk) s = .next t ∧ t.pc = s.pc + 2 ∧ (∀ r, t.getV r = if r = x then kk else s.getV r) ∧
      Frame [.pc, .v] s t

/-- ADD Vx, kk wraps modulo 256 and writes no flag (R94; the untouched VF is the spec's decision D24). -/
def Obligations.AddImmediateWraps : Prop :=
  ∀ (x : Reg) (kk : Byte) (s : State), ∃ t, exec (.addImm x kk) s = .next t ∧ t.pc = s.pc + 2 ∧
    (t.getV x).toNat = ((s.getV x).toNat + kk.toNat) % 256 ∧ (∀ r, r ≠ x → t.getV r = s.getV r) ∧ Frame [.pc, .v] s t

/-- LD Vx, Vy copies, OR, AND and XOR act on each bit, and none of the four writes a flag (R95 to R98; the untouched VF is
the spec's decision D24). -/
def Obligations.CopyAndLogicActBitwise : Prop :=
  ∀ (x y : Reg) (s : State),
    (∃ t, exec (.ldReg x y) s = .next t ∧ t.pc = s.pc + 2 ∧ (∀ r, t.getV r = if r = x then s.getV y else s.getV r) ∧
      Frame [.pc, .v] s t) ∧
    (∃ t, exec (.orReg x y) s = .next t ∧ t.pc = s.pc + 2 ∧ (∀ r, r ≠ x → t.getV r = s.getV r) ∧ Frame [.pc, .v] s t ∧
      ∀ j, (t.getV x).getLsbD j = ((s.getV x).getLsbD j || (s.getV y).getLsbD j)) ∧
    (∃ t, exec (.andReg x y) s = .next t ∧ t.pc = s.pc + 2 ∧ (∀ r, r ≠ x → t.getV r = s.getV r) ∧ Frame [.pc, .v] s t ∧
      ∀ j, (t.getV x).getLsbD j = ((s.getV x).getLsbD j && (s.getV y).getLsbD j)) ∧
    (∃ t, exec (.xorReg x y) s = .next t ∧ t.pc = s.pc + 2 ∧ (∀ r, r ≠ x → t.getV r = s.getV r) ∧ Frame [.pc, .v] s t ∧
      ∀ j, (t.getV x).getLsbD j = Bool.xor ((s.getV x).getLsbD j) ((s.getV y).getLsbD j))

/-- ADD Vx, Vy: VF is the carry, also when x = 15, and otherwise V[x] is the sum modulo 256 (R99, R105; x = 15 is the spec's
decision D7). -/
def Obligations.AddSetsCarry : Prop :=
  ∀ (x y : Reg) (s : State), ∃ t, exec (.addReg x y) s = .next t ∧ t.pc = s.pc + 2 ∧
    t.getV VF = (if 255 < (s.getV x).toNat + (s.getV y).toNat then 1 else 0) ∧
    (x ≠ VF → (t.getV x).toNat = ((s.getV x).toNat + (s.getV y).toNat) % 256) ∧
    (∀ r, r ≠ x → r ≠ VF → t.getV r = s.getV r) ∧ Frame [.pc, .v] s t

/-- SUB and SUBN: VF is NOT borrow, also when x = 15, and otherwise V[x] is the difference modulo 256 (R100, R102, R105;
x = 15 is the spec's decision D7). -/
def Obligations.SubtractionsSetNotBorrow : Prop :=
  ∀ (x y : Reg) (s : State),
    (∃ t, exec (.subReg x y) s = .next t ∧ t.pc = s.pc + 2 ∧
      t.getV VF = (if (s.getV y).toNat ≤ (s.getV x).toNat then 1 else 0) ∧
      (x ≠ VF → (t.getV x).toNat = ((s.getV x).toNat + 256 - (s.getV y).toNat) % 256) ∧
      (∀ r, r ≠ x → r ≠ VF → t.getV r = s.getV r) ∧ Frame [.pc, .v] s t) ∧
    (∃ t, exec (.subnReg x y) s = .next t ∧ t.pc = s.pc + 2 ∧
      t.getV VF = (if (s.getV x).toNat ≤ (s.getV y).toNat then 1 else 0) ∧
      (x ≠ VF → (t.getV x).toNat = ((s.getV y).toNat + 256 - (s.getV x).toNat) % 256) ∧
      (∀ r, r ≠ x → r ≠ VF → t.getV r = s.getV r) ∧ Frame [.pc, .v] s t)

/-- SHR and SHL shift V[x] in place by one bit, whatever y, and VF is the bit shifted out; with x = 15 the shift follows the
flag, so V[15] ends 0 after SHR and 0 or 2 after SHL (R101, R103, R105; x = 15 is the spec's decision D7). -/
def Obligations.ShiftsInPlace : Prop :=
  ∀ (x y : Reg) (s : State),
    (∃ t, exec (.shr x y) s = .next t ∧ t.pc = s.pc + 2 ∧
      (x ≠ VF → (t.getV x).toNat = (s.getV x).toNat / 2 ∧ (t.getV VF).toNat = (s.getV x).toNat % 2) ∧
      (x = VF → t.getV VF = 0) ∧ (∀ r, r ≠ x → r ≠ VF → t.getV r = s.getV r) ∧ Frame [.pc, .v] s t) ∧
    (∃ t, exec (.shl x y) s = .next t ∧ t.pc = s.pc + 2 ∧
      (x ≠ VF → (t.getV x).toNat = 2 * (s.getV x).toNat % 256 ∧ (t.getV VF).toNat = (s.getV x).toNat / 128) ∧
      (x = VF → (t.getV VF).toNat = 2 * ((s.getV x).toNat / 128)) ∧
      (∀ r, r ≠ x → r ≠ VF → t.getV r = s.getV r) ∧ Frame [.pc, .v] s t)

/-- RND writes the next free byte ANDed with kk, whatever that byte is (assumption log 5), so no bit outside kk is set; one
fresh byte per execution (R104; the spec's decision D19). -/
def Obligations.RandomByteIsMasked : Prop :=
  ∀ (x : Reg) (kk : Byte) (s : State), ∃ t, exec (.rnd x kk) s = .next t ∧ t.pc = s.pc + 2 ∧
    t.getV x = Config.randomByte s.draws &&& kk ∧ t.getV x &&& ~~~kk = 0 ∧ (t.getV x).toNat ≤ kk.toNat ∧
    t.draws = s.draws + 1 ∧ (∀ r, r ≠ x → t.getV r = s.getV r) ∧ Frame [.pc, .v, .draws] s t

/-! ## Index register and memory (43_index_memory.md) -/

/-- LD I, nnn, any 12-bit value, with no other effect (R107). -/
def Obligations.LoadIndexTakesTheAddress : Prop :=
  ∀ (nnn : Addr12) (s : State), decodeWord (0xA#4 ++ nnn) = .ok (.ldI nnn) ∧ ∃ t, exec (.ldI nnn) s = .next t ∧ t.pc = s.pc + 2 ∧ t.i.toNat = nnn.toNat ∧
    Frame [.pc, .i] s t

/-- ADD I, Vx: I wraps modulo 4096 and VF is the overflow of the 12-bit space (R108; the wrap is the spec's decision D3, the
write order D7). -/
def Obligations.AddToIndexWrapsAndFlags : Prop :=
  ∀ (x : Reg) (s : State), ∃ t, exec (.addI x) s = .next t ∧ t.pc = s.pc + 2 ∧
    t.i.toNat = (s.i.toNat + (s.getV x).toNat) % 4096 ∧
    t.getV VF = (if 0xFFF < s.i.toNat + (s.getV x).toNat then 1 else 0) ∧
    (∀ r, r ≠ VF → t.getV r = s.getV r) ∧ Frame [.pc, .i, .v] s t

/-- LD F, Vx points I at 5 times the whole byte V[x] (R109; above digit 15 it is the spec's decision D10). -/
def Obligations.LoadGlyphAddress : Prop :=
  ∀ (x : Reg) (s : State), ∃ t, exec (.ldF x) s = .next t ∧ t.pc = s.pc + 2 ∧ t.i.toNat = 5 * (s.getV x).toNat ∧
    Frame [.pc, .i] s t

/-- LD B, Vx stores the three decimal digits of V[x] at I, I+1, I+2, or is AddressOutOfRange with nothing written (R110,
R106; the fault rests on the spec's decisions D1 and D12). -/
def Obligations.StoreDecimalDigits : Prop :=
  ∀ (x : Reg) (s : State),
    (s.base + 2 ≤ 0xFFF → ∃ t, exec (.ldB x) s = .next t ∧ t.pc = s.pc + 2 ∧
      t.memRead s.base = some (BitVec.ofNat 8 ((s.getV x).toNat / 100)) ∧
      t.memRead (s.base + 1) = some (BitVec.ofNat 8 ((s.getV x).toNat / 10 % 10)) ∧
      t.memRead (s.base + 2) = some (BitVec.ofNat 8 ((s.getV x).toNat % 10)) ∧
      MemSameOutside s.base 3 s t ∧ Frame [.pc, .mem] s t) ∧
    (0xFFF < s.base + 2 → ∃ t, exec (.ldB x) s = .next t ∧ Raised s .addressOutOfRange (.ldB x) t)

/-- LD [I], Vx stores V[0] to V[x] at I to I+x and leaves I and the registers alone, or is AddressOutOfRange with nothing
written (R111, R106; the unmoved I is the spec's decision D23, the fault D1 and D12). -/
def Obligations.StoreRegistersFromI : Prop :=
  ∀ (x : Reg) (s : State),
    (s.base + x.toNat ≤ 0xFFF → ∃ t, exec (.ldMemVx x) s = .next t ∧ t.pc = s.pc + 2 ∧
      (∀ r : Reg, r.toNat ≤ x.toNat → t.memRead (s.base + r.toNat) = some (s.getV r)) ∧
      MemSameOutside s.base (x.toNat + 1) s t ∧ Frame [.pc, .mem] s t) ∧
    (0xFFF < s.base + x.toNat → ∃ t, exec (.ldMemVx x) s = .next t ∧ Raised s .addressOutOfRange (.ldMemVx x) t)

/-- LD Vx, [I] loads V[0] to V[x] from I to I+x and leaves I, the higher registers and memory alone, or is
AddressOutOfRange with no register changed (R112, R106; the fault rests on the spec's decisions D1 and D12). -/
def Obligations.LoadRegistersFromI : Prop :=
  ∀ (x : Reg) (s : State),
    (s.base + x.toNat ≤ 0xFFF → ∃ t, exec (.ldVxMem x) s = .next t ∧ t.pc = s.pc + 2 ∧
      (∀ r : Reg, r.toNat ≤ x.toNat → s.memRead (s.base + r.toNat) = some (t.getV r)) ∧
      (∀ r : Reg, x.toNat < r.toNat → t.getV r = s.getV r) ∧ Frame [.pc, .v] s t) ∧
    (0xFFF < s.base + x.toNat → ∃ t, exec (.ldVxMem x) s = .next t ∧ Raised s .addressOutOfRange (.ldVxMem x) t)

/-- A store of V[0..x] and a later load with the same I and x, memory untouched in between, restore the registers stored,
whatever the registers held meanwhile (R113). -/
def Obligations.StoreThenLoadRestores : Prop :=
  ∀ (x : Reg) (s t m : State), s.base + x.toNat ≤ 0xFFF → exec (.ldMemVx x) s = .next t → m.mem = t.mem → m.i = s.i →
    ∃ u, exec (.ldVxMem x) m = .next u ∧ ∀ r : Reg, r.toNat ≤ x.toNat → u.getV r = s.getV r

/-- A word stored where the next cycle fetches is the word it fetches, with no other action in between (R53). -/
def Obligations.StoredWordIsFetchedNext : Prop :=
  ∀ (x : Reg) (s t : State), 1 ≤ x.toNat → s.base + x.toNat ≤ 0xFFF → exec (.ldMemVx x) s = .next t →
    s.base = t.pc.toNat → t.fetch = some (wordOfBytes (s.getV 0) (s.getV 1))

/-! ## Display (44_display.md) -/

/-- CLS, the word 0x00E0, makes every pixel 0 and writes no register, and the first draw of a sprite that lies in memory
after it never collides (R115; the second part also R119, 95_test_vectors.md S3). -/
def Obligations.ClearScreenClearsEveryPixel : Prop :=
  decodeWord 0x00E0 = .ok .cls ∧
  ∀ s : State, ∃ t, exec .cls s = .next t ∧ t.pc = s.pc + 2 ∧
    (∀ px py, px < 64 → py < 32 → t.fb.pixel px py = false) ∧ Frame [.pc, .fb] s t ∧
    ∀ (x y : Reg) (n : Nibble), SpriteInMemory t n → ∃ u, exec (.drw x y n) t = .next u ∧ u.getV VF = 0

/-- DRW inverts exactly the pixels under a sprite bit of 1, each wrapped on its own, and VF is 1 exactly when one of them was
set; a sprite that reaches above 0xFFF is AddressOutOfRange with no pixel and no register changed (R117, R118; the wrap is
the spec's decision D5, the single read and write D6, the fault D1 and D12). -/
def Obligations.DrawXorsTheSprite : Prop :=
  ∀ (x y : Reg) (n : Nibble) (s : State),
    (SpriteInMemory s n → ∃ t, exec (.drw x y n) s = .next t ∧ t.pc = s.pc + 2 ∧
      (∀ px py, px < 64 → py < 32 →
        (SpriteCovers s x y n px py → t.fb.pixel px py = !s.fb.pixel px py) ∧
        (¬SpriteCovers s x y n px py → t.fb.pixel px py = s.fb.pixel px py)) ∧
      ((∃ px py, SpriteCovers s x y n px py ∧ s.fb.pixel px py = true) → t.getV VF = 1) ∧
      ((¬∃ px py, SpriteCovers s x y n px py ∧ s.fb.pixel px py = true) → t.getV VF = 0) ∧
      (∀ r, r ≠ VF → t.getV r = s.getV r) ∧ Frame [.pc, .v, .fb] s t) ∧
    (¬SpriteInMemory s n → ∃ t, exec (.drw x y n) s = .next t ∧ Raised s .addressOutOfRange (.drw x y n) t)

/-- The same sprite drawn twice at the same place leaves the framebuffer as it was, and the second draw collides exactly when
the first set a pixel (R119, 95_test_vectors.md S4). -/
def Obligations.DrawTwiceRestores : Prop :=
  ∀ (x y : Reg) (n : Nibble) (s t : State), x ≠ VF → y ≠ VF → SpriteInMemory s n → exec (.drw x y n) s = .next t →
    ∃ u, exec (.drw x y n) t = .next u ∧ u.fb = s.fb ∧
      (u.getV VF = 1 ↔ ∃ px py, px < 64 ∧ py < 32 ∧ t.fb.pixel px py = true ∧ s.fb.pixel px py = false)

/-! ## Keypad and timers (45_keypad_timers.md) -/

/-- SKP and SKNP test the latch of the key V[x] names, or are KeyIndexOutOfRange when V[x] exceeds 15 (R120 to R122; the
fault is the spec's decision D9, its entry D12). -/
def Obligations.SkipsTestTheKeyLatch : Prop :=
  ∀ (x : Reg) (s : State),
    (∀ down, s.keyLatch (s.getV x).toNat = some down →
      (∃ t, exec (.skp x) s = .next t ∧ t.pc = (if down = true then s.pc + 4 else s.pc + 2) ∧ Frame [.pc] s t) ∧
      (∃ t, exec (.sknp x) s = .next t ∧ t.pc = (if down = false then s.pc + 4 else s.pc + 2) ∧ Frame [.pc] s t)) ∧
    ((s.getV x).toNat ≤ 15 → ∃ down, s.keyLatch (s.getV x).toNat = some down) ∧
    (15 < (s.getV x).toNat →
      (∃ t, exec (.skp x) s = .next t ∧ Raised s .keyIndexOutOfRange (.skp x) t) ∧
      (∃ t, exec (.sknp x) s = .next t ∧ Raised s .keyIndexOutOfRange (.sknp x) t))

/-- The issue of LD Vx, K moves RUN to WaitKey(x) with PC past the instruction and changes nothing else, whatever keys are
held (R123). -/
def Obligations.KeyWaitIsIssued : Prop :=
  ∀ (x : Reg) (s : State), ∃ t, exec (.ldVxK x) s = .next t ∧ t.run = .waitKey x ∧ t.pc = s.pc + 2 ∧ Frame [.pc, .run] s t

/-- A press of key k during the wait of LD Vx, K sets the latch, loads k into V[x], steps the timers once, publishes one
snapshot and resumes (R124; rests on the spec's decisions D18 and D28). -/
def Obligations.KeyPressCompletesTheWait : Prop :=
  ∀ (x : Reg) (k : Nat) (s : State), s.run = .waitKey x → k ≤ 15 →
    ∃ t, s.deliver (.press k) = .next t ∧ t.run = .running ∧
      (∀ j, t.keyLatch j = if j = k then some true else s.keyLatch j) ∧
      (t.getV x).toNat = k ∧ (∀ r, r ≠ x → t.getV r = s.getV r) ∧
      t.dt.toNat = s.dt.toNat - 1 ∧ t.st.toNat = s.st.toNat - 1 ∧
      t.snapshot = some t.toSnapshot ∧ t.snapshots = s.snapshots + 1 ∧
      Frame [.v, .dt, .st, .key, .run, .snapshot] s t

/-- LD Vx, DT reads DT; LD DT, Vx and LD ST, Vx write the timers (R125 to R127). The directions are the spec's decision D11,
from general knowledge (assumption log 24). -/
def Obligations.TimerCopies : Prop :=
  ∀ (x : Reg) (s : State),
    (∃ t, exec (.ldVxDT x) s = .next t ∧ t.pc = s.pc + 2 ∧ t.getV x = s.dt ∧ (∀ r, r ≠ x → t.getV r = s.getV r) ∧
      Frame [.pc, .v] s t) ∧
    (∃ t, exec (.ldDTVx x) s = .next t ∧ t.pc = s.pc + 2 ∧ t.dt = s.getV x ∧ Frame [.pc, .dt] s t) ∧
    (∃ t, exec (.ldSTVx x) s = .next t ∧ t.pc = s.pc + 2 ∧ t.st = s.getV x ∧ Frame [.pc, .st] s t)

/-! ## The host (60_exceptions.md, 70_reset_and_hazards.md) -/

/-- start(program) in Idle, Stopped or Faulted: the reset values, the program at 0x200 and Running; a program longer than
3584 bytes is the fault with nothing written (R152). -/
def Obligations.StartResetsAndLoads : Prop :=
  ∀ (s : State) (program : List Byte), s.run = .idle ∨ s.run = .stopped ∨ s.run = .faulted →
    ∃ t, s.deliver (.start program) = .next t ∧
      t.pc = 0x200 ∧ t.i = 0 ∧ t.dt = 0 ∧ t.st = 0 ∧ (∀ r, t.getV r = 0) ∧ t.sp = 0 ∧
      (∀ px py, px < 64 → py < 32 → t.fb.pixel px py = false) ∧
      (3584 < program.length → t.run = .faulted ∧ t.fault = some ⟨.addressOutOfRange, none, none⟩ ∧
        Frame [.v, .i, .pc, .dt, .st, .sp, .fb, .run, .fault] s t) ∧
      (program.length ≤ 3584 → t.run = .running ∧ t.fault = none ∧
        (∀ j, j < program.length → t.memRead (0x200 + j) = program[j]?) ∧ MemSameOutside 0x200 program.length s t ∧
        Frame [.v, .i, .pc, .dt, .st, .sp, .fb, .run, .fault, .mem] s t)

/-- start while the loop is Running or waiting is refused (R144: the spec gives the case no meaning, decision D22,
assumption log 8). -/
def Obligations.StartWhileActiveIsRefused : Prop :=
  ∀ (s : State) (program : List Byte), (s.run = .running ∨ ∃ x, s.run = .waitKey x) →
    s.deliver (.start program) = .refused .startWhileActive

/-- The launch state: after construction with any FONT, MEM_BACKGROUND and STACK_INIT, a start leaves exactly the state of
R153 (the open parameters are the spec's decisions D14 to D17). -/
def Obligations.LaunchStateAfterConstruction : Prop :=
  ∀ (p : Config.Params) (program : List Byte), p.font.length = 80 → p.background.length = 4096 → program.length ≤ 3584 →
    ∃ t, (State.construct p).deliver (.start program) = .next t ∧
      t.pc = 0x200 ∧ t.i = 0 ∧ t.dt = 0 ∧ t.st = 0 ∧ t.sp = 0 ∧ (∀ r, t.getV r = 0) ∧
      (∀ px py, t.fb.pixel px py = false) ∧ (∀ k, k ≤ 15 → t.keyLatch k = some false) ∧ t.stack = p.stackInit ∧
      t.run = .running ∧ t.fault = none ∧ t.snapshot = none ∧
      (∀ a, a < 80 → t.memRead a = p.font[a]?) ∧
      (∀ a, 80 ≤ a → a < 0x200 → t.memRead a = p.background[a]?) ∧
      (∀ j, j < program.length → t.memRead (0x200 + j) = program[j]?) ∧
      (∀ a, 0x200 + program.length ≤ a → t.memRead a = p.background[a]?)

/-- State.reset is the launch state of the empty program with the default parameters: the model's choice of what reset is
(assumption log 1), with the default memory of logs 2 to 4. -/
def Obligations.ResetIsTheLaunchOfTheEmptyProgram : Prop :=
  (State.construct defaultParams).deliver (.start []) = .next State.reset

/-- stop halts a running or waiting loop and changes nothing else, and does nothing in the other states (R145; the abandoned
wait is the spec's decision D21). -/
def Obligations.StopHaltsTheLoop : Prop :=
  ∀ s : State,
    ((s.run = .running ∨ ∃ x, s.run = .waitKey x) → s.deliver .stop = .next { s with run := .stopped }) ∧
    (s.run = .idle ∨ s.run = .stopped ∨ s.run = .faulted → s.deliver .stop = .next s)

/-- press(k) sets one latch in every run state but a wait, and is ignored above 15 (R146; rests on the spec's decisions D16
and D18). -/
def Obligations.PressSetsTheLatch : Prop :=
  ∀ (s : State) (k : Nat),
    (k ≤ 15 → (∀ x, s.run ≠ .waitKey x) → ∃ t, s.deliver (.press k) = .next t ∧
      (∀ j, t.keyLatch j = if j = k then some true else s.keyLatch j) ∧ Frame [.key] s t) ∧
    (15 < k → s.deliver (.press k) = .next s)

/-- release(k) clears one latch in every run state, a wait included, and is ignored above 15 (R147). -/
def Obligations.ReleaseClearsTheLatch : Prop :=
  ∀ (s : State) (k : Nat),
    (k ≤ 15 → ∃ t, s.deliver (.release k) = .next t ∧
      (∀ j, t.keyLatch j = if j = k then some false else s.keyLatch j) ∧ Frame [.key] s t) ∧
    (15 < k → s.deliver (.release k) = .next s)

/-! ## Rules of the whole machine -/

/-- The invariant of the machine holds at State.reset. What State.reset is, is the model's choice (assumption log 1). Its bounds
are those of 10_state.md R35, its fault-record clause R30; its canonical-form and snapshot clauses are the model's own
(assumption logs 15 and 9). -/
def Obligations.ResetMeetsTheInvariant : Prop := State.reset.Inv

/-- Every step keeps the invariant, from every state that has it and whatever the host does (R35, R30; the canonical-form and
snapshot clauses are the model's own, assumption logs 15 and 9). -/
def Obligations.StepKeepsTheInvariant : Prop :=
  ∀ s t : State, s.Inv → step s = .next t → t.Inv

/-- An instruction writes only what its rule names: its parts of the state, of the registers those of R15, of the stack the
slot SP, of memory the 3 bytes of LD B or the x + 1 bytes of LD [I], Vx from the address in I on; or, exactly when its one
fault condition holds, it raises that fault, which writes RUN and FAULT alone (R15, R49, R106, R110, R111, R134, R136). That
the fault is a NEXT state is the model's choice (assumption log 7), as are the fields of the model's own in the frame (logs 5,
6, 9). The fault conditions and the entry rest on the spec's decisions D1, D3, D4, D6, D9, D10, D12 and D13, the stack slot on
D17; what is written rests on the timer directions D11, taken from general knowledge (PRESUMED, assumption log 24), and on the
unmoved I of Fx55 and Fx65 and the untouched VF of 7xkk and 8xy0 to 8xy3, D23 and D24 (assumption log 32). -/
def Obligations.InstructionsWriteOnlyTheirParts : Prop :=
  ∀ (i : Instr) (s t : State), exec i s = .next t →
    (faultOf i s = none ∧ WritesOnlyItsParts i s t) ∨ ∃ cause, faultOf i s = some cause ∧ Raised s cause i t

/-- No instruction writes RUN but LD Vx, K, which moves it to WaitKey, and a fault (R139, R78). -/
def Obligations.OnlyTheKeyWaitMovesTheRunState : Prop :=
  ∀ (i : Instr) (s t : State), exec i s = .next t → t.run ≠ s.run →
    (∃ x, i = .ldVxK x ∧ t.run = .waitKey x) ∨ (∃ cause, Raised s cause i t)

/-- Over the whole machine the keypad latch moves only when the host presses or releases a key (R27). -/
def Obligations.OnlyKeyEventsMoveTheLatch : Prop :=
  ∀ s t : State, step s = .next t → t.key ≠ s.key →
    ∃ k rest, k ≤ 15 ∧ (s.hostScript = .press k :: rest ∨ s.hostScript = .release k :: rest)

/-- A program cannot observe ST: an instruction run with another ST does the same to everything but ST (R19, R36, R125 to R127;
ST drives nothing by the spec's decision D26). That no instruction reads ST rests on the timer directions, the spec's decision
D11, taken from general knowledge (PRESUMED, assumption log 24). -/
def Obligations.SoundTimerIsUnobservable : Prop :=
  ∀ (i : Instr) (s t : State) (a : Byte), exec i s = .next t →
    ∃ t', exec i { s with st := a } = .next t' ∧ { t' with st := t.st } = t

/-- A program cannot observe a stack slot at SP or above: an instruction run with other stale slots does the same to
everything but stale slots (R21; the layout is the spec's decision D17). -/
def Obligations.StaleStackSlotsAreUnobservable : Prop :=
  ∀ (i : Instr) (s s' t : State), { s' with stack := s.stack } = s → SameLiveStack s s' → exec i s = .next t →
    ∃ t', exec i s' = .next t' ∧ { t' with stack := t.stack } = t ∧ SameLiveStack t t'

/-- A running jump to its own address is quiescent: a tick changes only the timers, toward 0, and publishes one snapshot, of
the state it leaves (R165; that the snapshot is kept and counted is the model's choice, assumption log 9). -/
def Obligations.JumpToSelfIsQuiescent : Prop :=
  ∀ (s : State) (nnn : Addr12), s.run = .running → s.hostScript = [] → nnn.toNat = s.pc.toNat →
    s.memReadWord s.pc.toNat = some (encode (.jp nnn)) →
    ∃ t, step s = .next t ∧ t.dt.toNat = s.dt.toNat - 1 ∧ t.st.toNat = s.st.toNat - 1 ∧
      t.snapshot = some t.toSnapshot ∧ t.snapshots = s.snapshots + 1 ∧ Frame [.dt, .st, .snapshot] s t
end

