-- ==== Sys2Proof/Laws/State.lean ====
section
/-! SUPPORT. One lemma per field per update of State, each true by rfl, so that no later proof unfolds an update. -/

namespace Sys2Proof.Machine

/-! ### setV -/

@[simp] theorem State.setV_v (s : State) (r : Reg) (b : Byte) : (s.setV r b).v = s.v.set r.toNat b r.isLt := rfl
@[simp] theorem State.setV_i (s : State) (r : Reg) (b : Byte) : (s.setV r b).i = s.i := rfl
@[simp] theorem State.setV_pc (s : State) (r : Reg) (b : Byte) : (s.setV r b).pc = s.pc := rfl
@[simp] theorem State.setV_dt (s : State) (r : Reg) (b : Byte) : (s.setV r b).dt = s.dt := rfl
@[simp] theorem State.setV_st (s : State) (r : Reg) (b : Byte) : (s.setV r b).st = s.st := rfl
@[simp] theorem State.setV_sp (s : State) (r : Reg) (b : Byte) : (s.setV r b).sp = s.sp := rfl
@[simp] theorem State.setV_stack (s : State) (r : Reg) (b : Byte) : (s.setV r b).stack = s.stack := rfl
@[simp] theorem State.setV_fb (s : State) (r : Reg) (b : Byte) : (s.setV r b).fb = s.fb := rfl
@[simp] theorem State.setV_key (s : State) (r : Reg) (b : Byte) : (s.setV r b).key = s.key := rfl
@[simp] theorem State.setV_run (s : State) (r : Reg) (b : Byte) : (s.setV r b).run = s.run := rfl
@[simp] theorem State.setV_fault (s : State) (r : Reg) (b : Byte) : (s.setV r b).fault = s.fault := rfl
@[simp] theorem State.setV_mem (s : State) (r : Reg) (b : Byte) : (s.setV r b).mem = s.mem := rfl
@[simp] theorem State.setV_snapshot (s : State) (r : Reg) (b : Byte) : (s.setV r b).snapshot = s.snapshot := rfl
@[simp] theorem State.setV_snapshots (s : State) (r : Reg) (b : Byte) : (s.setV r b).snapshots = s.snapshots := rfl
@[simp] theorem State.setV_draws (s : State) (r : Reg) (b : Byte) : (s.setV r b).draws = s.draws := rfl
@[simp] theorem State.setV_hostScript (s : State) (r : Reg) (b : Byte) : (s.setV r b).hostScript = s.hostScript := rfl
@[simp] theorem State.base_setV (s : State) (r : Reg) (b : Byte) : (s.setV r b).base = s.base := rfl
@[simp] theorem State.memRead_setV (s : State) (r : Reg) (b : Byte) (a : Nat) : (s.setV r b).memRead a = s.memRead a := rfl

/-! ### setI -/

@[simp] theorem State.setI_v (s : State) (w : Word) : (s.setI w).v = s.v := rfl
@[simp] theorem State.setI_i (s : State) (w : Word) : (s.setI w).i = w := rfl
@[simp] theorem State.setI_pc (s : State) (w : Word) : (s.setI w).pc = s.pc := rfl
@[simp] theorem State.setI_dt (s : State) (w : Word) : (s.setI w).dt = s.dt := rfl
@[simp] theorem State.setI_st (s : State) (w : Word) : (s.setI w).st = s.st := rfl
@[simp] theorem State.setI_sp (s : State) (w : Word) : (s.setI w).sp = s.sp := rfl
@[simp] theorem State.setI_stack (s : State) (w : Word) : (s.setI w).stack = s.stack := rfl
@[simp] theorem State.setI_fb (s : State) (w : Word) : (s.setI w).fb = s.fb := rfl
@[simp] theorem State.setI_key (s : State) (w : Word) : (s.setI w).key = s.key := rfl
@[simp] theorem State.setI_run (s : State) (w : Word) : (s.setI w).run = s.run := rfl
@[simp] theorem State.setI_fault (s : State) (w : Word) : (s.setI w).fault = s.fault := rfl
@[simp] theorem State.setI_mem (s : State) (w : Word) : (s.setI w).mem = s.mem := rfl
@[simp] theorem State.setI_snapshot (s : State) (w : Word) : (s.setI w).snapshot = s.snapshot := rfl
@[simp] theorem State.setI_snapshots (s : State) (w : Word) : (s.setI w).snapshots = s.snapshots := rfl
@[simp] theorem State.setI_draws (s : State) (w : Word) : (s.setI w).draws = s.draws := rfl
@[simp] theorem State.setI_hostScript (s : State) (w : Word) : (s.setI w).hostScript = s.hostScript := rfl
@[simp] theorem State.getV_setI (s : State) (w : Word) (q : Reg) : (s.setI w).getV q = s.getV q := rfl
@[simp] theorem State.memRead_setI (s : State) (w : Word) (a : Nat) : (s.setI w).memRead a = s.memRead a := rfl

/-! ### setPc -/

@[simp] theorem State.setPc_v (s : State) (w : Word) : (s.setPc w).v = s.v := rfl
@[simp] theorem State.setPc_i (s : State) (w : Word) : (s.setPc w).i = s.i := rfl
@[simp] theorem State.setPc_pc (s : State) (w : Word) : (s.setPc w).pc = w := rfl
@[simp] theorem State.setPc_dt (s : State) (w : Word) : (s.setPc w).dt = s.dt := rfl
@[simp] theorem State.setPc_st (s : State) (w : Word) : (s.setPc w).st = s.st := rfl
@[simp] theorem State.setPc_sp (s : State) (w : Word) : (s.setPc w).sp = s.sp := rfl
@[simp] theorem State.setPc_stack (s : State) (w : Word) : (s.setPc w).stack = s.stack := rfl
@[simp] theorem State.setPc_fb (s : State) (w : Word) : (s.setPc w).fb = s.fb := rfl
@[simp] theorem State.setPc_key (s : State) (w : Word) : (s.setPc w).key = s.key := rfl
@[simp] theorem State.setPc_run (s : State) (w : Word) : (s.setPc w).run = s.run := rfl
@[simp] theorem State.setPc_fault (s : State) (w : Word) : (s.setPc w).fault = s.fault := rfl
@[simp] theorem State.setPc_mem (s : State) (w : Word) : (s.setPc w).mem = s.mem := rfl
@[simp] theorem State.setPc_snapshot (s : State) (w : Word) : (s.setPc w).snapshot = s.snapshot := rfl
@[simp] theorem State.setPc_snapshots (s : State) (w : Word) : (s.setPc w).snapshots = s.snapshots := rfl
@[simp] theorem State.setPc_draws (s : State) (w : Word) : (s.setPc w).draws = s.draws := rfl
@[simp] theorem State.setPc_hostScript (s : State) (w : Word) : (s.setPc w).hostScript = s.hostScript := rfl
@[simp] theorem State.getV_setPc (s : State) (w : Word) (q : Reg) : (s.setPc w).getV q = s.getV q := rfl
@[simp] theorem State.base_setPc (s : State) (w : Word) : (s.setPc w).base = s.base := rfl
@[simp] theorem State.memRead_setPc (s : State) (w : Word) (a : Nat) : (s.setPc w).memRead a = s.memRead a := rfl

/-! ### setDT -/

@[simp] theorem State.setDT_v (s : State) (b : Byte) : (s.setDT b).v = s.v := rfl
@[simp] theorem State.setDT_i (s : State) (b : Byte) : (s.setDT b).i = s.i := rfl
@[simp] theorem State.setDT_pc (s : State) (b : Byte) : (s.setDT b).pc = s.pc := rfl
@[simp] theorem State.setDT_dt (s : State) (b : Byte) : (s.setDT b).dt = b := rfl
@[simp] theorem State.setDT_st (s : State) (b : Byte) : (s.setDT b).st = s.st := rfl
@[simp] theorem State.setDT_sp (s : State) (b : Byte) : (s.setDT b).sp = s.sp := rfl
@[simp] theorem State.setDT_stack (s : State) (b : Byte) : (s.setDT b).stack = s.stack := rfl
@[simp] theorem State.setDT_fb (s : State) (b : Byte) : (s.setDT b).fb = s.fb := rfl
@[simp] theorem State.setDT_key (s : State) (b : Byte) : (s.setDT b).key = s.key := rfl
@[simp] theorem State.setDT_run (s : State) (b : Byte) : (s.setDT b).run = s.run := rfl
@[simp] theorem State.setDT_fault (s : State) (b : Byte) : (s.setDT b).fault = s.fault := rfl
@[simp] theorem State.setDT_mem (s : State) (b : Byte) : (s.setDT b).mem = s.mem := rfl
@[simp] theorem State.setDT_snapshot (s : State) (b : Byte) : (s.setDT b).snapshot = s.snapshot := rfl
@[simp] theorem State.setDT_snapshots (s : State) (b : Byte) : (s.setDT b).snapshots = s.snapshots := rfl
@[simp] theorem State.setDT_draws (s : State) (b : Byte) : (s.setDT b).draws = s.draws := rfl
@[simp] theorem State.setDT_hostScript (s : State) (b : Byte) : (s.setDT b).hostScript = s.hostScript := rfl
@[simp] theorem State.getV_setDT (s : State) (b : Byte) (q : Reg) : (s.setDT b).getV q = s.getV q := rfl
@[simp] theorem State.base_setDT (s : State) (b : Byte) : (s.setDT b).base = s.base := rfl
@[simp] theorem State.memRead_setDT (s : State) (b : Byte) (a : Nat) : (s.setDT b).memRead a = s.memRead a := rfl

/-! ### setST -/

@[simp] theorem State.setST_v (s : State) (b : Byte) : (s.setST b).v = s.v := rfl
@[simp] theorem State.setST_i (s : State) (b : Byte) : (s.setST b).i = s.i := rfl
@[simp] theorem State.setST_pc (s : State) (b : Byte) : (s.setST b).pc = s.pc := rfl
@[simp] theorem State.setST_dt (s : State) (b : Byte) : (s.setST b).dt = s.dt := rfl
@[simp] theorem State.setST_st (s : State) (b : Byte) : (s.setST b).st = b := rfl
@[simp] theorem State.setST_sp (s : State) (b : Byte) : (s.setST b).sp = s.sp := rfl
@[simp] theorem State.setST_stack (s : State) (b : Byte) : (s.setST b).stack = s.stack := rfl
@[simp] theorem State.setST_fb (s : State) (b : Byte) : (s.setST b).fb = s.fb := rfl
@[simp] theorem State.setST_key (s : State) (b : Byte) : (s.setST b).key = s.key := rfl
@[simp] theorem State.setST_run (s : State) (b : Byte) : (s.setST b).run = s.run := rfl
@[simp] theorem State.setST_fault (s : State) (b : Byte) : (s.setST b).fault = s.fault := rfl
@[simp] theorem State.setST_mem (s : State) (b : Byte) : (s.setST b).mem = s.mem := rfl
@[simp] theorem State.setST_snapshot (s : State) (b : Byte) : (s.setST b).snapshot = s.snapshot := rfl
@[simp] theorem State.setST_snapshots (s : State) (b : Byte) : (s.setST b).snapshots = s.snapshots := rfl
@[simp] theorem State.setST_draws (s : State) (b : Byte) : (s.setST b).draws = s.draws := rfl
@[simp] theorem State.setST_hostScript (s : State) (b : Byte) : (s.setST b).hostScript = s.hostScript := rfl
@[simp] theorem State.getV_setST (s : State) (b : Byte) (q : Reg) : (s.setST b).getV q = s.getV q := rfl
@[simp] theorem State.base_setST (s : State) (b : Byte) : (s.setST b).base = s.base := rfl
@[simp] theorem State.memRead_setST (s : State) (b : Byte) (a : Nat) : (s.setST b).memRead a = s.memRead a := rfl

/-! ### advance -/

@[simp] theorem State.advance_v (s : State) : (s.advance).v = s.v := rfl
@[simp] theorem State.advance_i (s : State) : (s.advance).i = s.i := rfl
@[simp] theorem State.advance_pc (s : State) : (s.advance).pc = s.pc + 2 := rfl
@[simp] theorem State.advance_dt (s : State) : (s.advance).dt = s.dt := rfl
@[simp] theorem State.advance_st (s : State) : (s.advance).st = s.st := rfl
@[simp] theorem State.advance_sp (s : State) : (s.advance).sp = s.sp := rfl
@[simp] theorem State.advance_stack (s : State) : (s.advance).stack = s.stack := rfl
@[simp] theorem State.advance_fb (s : State) : (s.advance).fb = s.fb := rfl
@[simp] theorem State.advance_key (s : State) : (s.advance).key = s.key := rfl
@[simp] theorem State.advance_run (s : State) : (s.advance).run = s.run := rfl
@[simp] theorem State.advance_fault (s : State) : (s.advance).fault = s.fault := rfl
@[simp] theorem State.advance_mem (s : State) : (s.advance).mem = s.mem := rfl
@[simp] theorem State.advance_snapshot (s : State) : (s.advance).snapshot = s.snapshot := rfl
@[simp] theorem State.advance_snapshots (s : State) : (s.advance).snapshots = s.snapshots := rfl
@[simp] theorem State.advance_draws (s : State) : (s.advance).draws = s.draws := rfl
@[simp] theorem State.advance_hostScript (s : State) : (s.advance).hostScript = s.hostScript := rfl
@[simp] theorem State.getV_advance (s : State) (q : Reg) : (s.advance).getV q = s.getV q := rfl
@[simp] theorem State.base_advance (s : State) : (s.advance).base = s.base := rfl
@[simp] theorem State.memRead_advance (s : State) (a : Nat) : (s.advance).memRead a = s.memRead a := rfl

/-! ### skip -/

@[simp] theorem State.skip_v (s : State) : (s.skip).v = s.v := rfl
@[simp] theorem State.skip_i (s : State) : (s.skip).i = s.i := rfl
@[simp] theorem State.skip_pc (s : State) : (s.skip).pc = s.pc + 2 := rfl
@[simp] theorem State.skip_dt (s : State) : (s.skip).dt = s.dt := rfl
@[simp] theorem State.skip_st (s : State) : (s.skip).st = s.st := rfl
@[simp] theorem State.skip_sp (s : State) : (s.skip).sp = s.sp := rfl
@[simp] theorem State.skip_stack (s : State) : (s.skip).stack = s.stack := rfl
@[simp] theorem State.skip_fb (s : State) : (s.skip).fb = s.fb := rfl
@[simp] theorem State.skip_key (s : State) : (s.skip).key = s.key := rfl
@[simp] theorem State.skip_run (s : State) : (s.skip).run = s.run := rfl
@[simp] theorem State.skip_fault (s : State) : (s.skip).fault = s.fault := rfl
@[simp] theorem State.skip_mem (s : State) : (s.skip).mem = s.mem := rfl
@[simp] theorem State.skip_snapshot (s : State) : (s.skip).snapshot = s.snapshot := rfl
@[simp] theorem State.skip_snapshots (s : State) : (s.skip).snapshots = s.snapshots := rfl
@[simp] theorem State.skip_draws (s : State) : (s.skip).draws = s.draws := rfl
@[simp] theorem State.skip_hostScript (s : State) : (s.skip).hostScript = s.hostScript := rfl
@[simp] theorem State.getV_skip (s : State) (q : Reg) : (s.skip).getV q = s.getV q := rfl
@[simp] theorem State.base_skip (s : State) : (s.skip).base = s.base := rfl
@[simp] theorem State.memRead_skip (s : State) (a : Nat) : (s.skip).memRead a = s.memRead a := rfl

/-! ### timerStep -/

@[simp] theorem State.timerStep_v (s : State) : (s.timerStep).v = s.v := rfl
@[simp] theorem State.timerStep_i (s : State) : (s.timerStep).i = s.i := rfl
@[simp] theorem State.timerStep_pc (s : State) : (s.timerStep).pc = s.pc := rfl
@[simp] theorem State.timerStep_dt (s : State) : (s.timerStep).dt = countdown s.dt := rfl
@[simp] theorem State.timerStep_st (s : State) : (s.timerStep).st = countdown s.st := rfl
@[simp] theorem State.timerStep_sp (s : State) : (s.timerStep).sp = s.sp := rfl
@[simp] theorem State.timerStep_stack (s : State) : (s.timerStep).stack = s.stack := rfl
@[simp] theorem State.timerStep_fb (s : State) : (s.timerStep).fb = s.fb := rfl
@[simp] theorem State.timerStep_key (s : State) : (s.timerStep).key = s.key := rfl
@[simp] theorem State.timerStep_run (s : State) : (s.timerStep).run = s.run := rfl
@[simp] theorem State.timerStep_fault (s : State) : (s.timerStep).fault = s.fault := rfl
@[simp] theorem State.timerStep_mem (s : State) : (s.timerStep).mem = s.mem := rfl
@[simp] theorem State.timerStep_snapshot (s : State) : (s.timerStep).snapshot = s.snapshot := rfl
@[simp] theorem State.timerStep_snapshots (s : State) : (s.timerStep).snapshots = s.snapshots := rfl
@[simp] theorem State.timerStep_draws (s : State) : (s.timerStep).draws = s.draws := rfl
@[simp] theorem State.timerStep_hostScript (s : State) : (s.timerStep).hostScript = s.hostScript := rfl
@[simp] theorem State.getV_timerStep (s : State) (q : Reg) : (s.timerStep).getV q = s.getV q := rfl
@[simp] theorem State.base_timerStep (s : State) : (s.timerStep).base = s.base := rfl
@[simp] theorem State.memRead_timerStep (s : State) (a : Nat) : (s.timerStep).memRead a = s.memRead a := rfl

/-! ### publish -/

@[simp] theorem State.publish_v (s : State) : (s.publish).v = s.v := rfl
@[simp] theorem State.publish_i (s : State) : (s.publish).i = s.i := rfl
@[simp] theorem State.publish_pc (s : State) : (s.publish).pc = s.pc := rfl
@[simp] theorem State.publish_dt (s : State) : (s.publish).dt = s.dt := rfl
@[simp] theorem State.publish_st (s : State) : (s.publish).st = s.st := rfl
@[simp] theorem State.publish_sp (s : State) : (s.publish).sp = s.sp := rfl
@[simp] theorem State.publish_stack (s : State) : (s.publish).stack = s.stack := rfl
@[simp] theorem State.publish_fb (s : State) : (s.publish).fb = s.fb := rfl
@[simp] theorem State.publish_key (s : State) : (s.publish).key = s.key := rfl
@[simp] theorem State.publish_run (s : State) : (s.publish).run = s.run := rfl
@[simp] theorem State.publish_fault (s : State) : (s.publish).fault = s.fault := rfl
@[simp] theorem State.publish_mem (s : State) : (s.publish).mem = s.mem := rfl
@[simp] theorem State.publish_snapshot (s : State) : (s.publish).snapshot = some s.toSnapshot := rfl
@[simp] theorem State.publish_snapshots (s : State) : (s.publish).snapshots = s.snapshots + 1 := rfl
@[simp] theorem State.publish_draws (s : State) : (s.publish).draws = s.draws := rfl
@[simp] theorem State.publish_hostScript (s : State) : (s.publish).hostScript = s.hostScript := rfl
@[simp] theorem State.getV_publish (s : State) (q : Reg) : (s.publish).getV q = s.getV q := rfl
@[simp] theorem State.base_publish (s : State) : (s.publish).base = s.base := rfl
@[simp] theorem State.memRead_publish (s : State) (a : Nat) : (s.publish).memRead a = s.memRead a := rfl

/-! ### raise -/

@[simp] theorem State.raise_v (s : State) (c : Fault) (o : Option Word) : (s.raise c o).v = s.v := rfl
@[simp] theorem State.raise_i (s : State) (c : Fault) (o : Option Word) : (s.raise c o).i = s.i := rfl
@[simp] theorem State.raise_pc (s : State) (c : Fault) (o : Option Word) : (s.raise c o).pc = s.pc := rfl
@[simp] theorem State.raise_dt (s : State) (c : Fault) (o : Option Word) : (s.raise c o).dt = s.dt := rfl
@[simp] theorem State.raise_st (s : State) (c : Fault) (o : Option Word) : (s.raise c o).st = s.st := rfl
@[simp] theorem State.raise_sp (s : State) (c : Fault) (o : Option Word) : (s.raise c o).sp = s.sp := rfl
@[simp] theorem State.raise_stack (s : State) (c : Fault) (o : Option Word) : (s.raise c o).stack = s.stack := rfl
@[simp] theorem State.raise_fb (s : State) (c : Fault) (o : Option Word) : (s.raise c o).fb = s.fb := rfl
@[simp] theorem State.raise_key (s : State) (c : Fault) (o : Option Word) : (s.raise c o).key = s.key := rfl
@[simp] theorem State.raise_run (s : State) (c : Fault) (o : Option Word) : (s.raise c o).run = .faulted := rfl
@[simp] theorem State.raise_fault (s : State) (c : Fault) (o : Option Word) : (s.raise c o).fault = some ⟨c, o, some s.pc⟩ := rfl
@[simp] theorem State.raise_mem (s : State) (c : Fault) (o : Option Word) : (s.raise c o).mem = s.mem := rfl
@[simp] theorem State.raise_snapshot (s : State) (c : Fault) (o : Option Word) : (s.raise c o).snapshot = s.snapshot := rfl
@[simp] theorem State.raise_snapshots (s : State) (c : Fault) (o : Option Word) : (s.raise c o).snapshots = s.snapshots := rfl
@[simp] theorem State.raise_draws (s : State) (c : Fault) (o : Option Word) : (s.raise c o).draws = s.draws := rfl
@[simp] theorem State.raise_hostScript (s : State) (c : Fault) (o : Option Word) : (s.raise c o).hostScript = s.hostScript := rfl
@[simp] theorem State.getV_raise (s : State) (c : Fault) (o : Option Word) (q : Reg) : (s.raise c o).getV q = s.getV q := rfl
@[simp] theorem State.base_raise (s : State) (c : Fault) (o : Option Word) : (s.raise c o).base = s.base := rfl
@[simp] theorem State.memRead_raise (s : State) (c : Fault) (o : Option Word) (a : Nat) : (s.raise c o).memRead a = s.memRead a := rfl

/-! ### Reading back a register -/

/-- A register reads as what was last written to it, every other register as before (10_state.md R13). -/
@[simp] theorem State.getV_setV (s : State) (r q : Reg) (b : Byte) :
    (s.setV r b).getV q = if q = r then b else s.getV q := by
  simp only [State.getV, State.setV, Vector.getElem_set]
  by_cases h : q = r
  · simp [h]
  · have : r.toNat ≠ q.toNat := fun e => h (BitVec.eq_of_toNat_eq e.symm)
    simp [h, this]

/-- A conditional skip touches PC alone. -/
theorem State.skipIf_eq (s : State) (c : Bool) : s.skipIf c = s.setPc (if c then s.pc + 2 else s.pc) := by
  cases c <;> rfl

/-- Every register is one of the sixteen slots, so equal reads are equal register files. -/
theorem State.v_ext {s t : State} (h : ∀ r, t.getV r = s.getV r) : t.v = s.v := by
  apply Vector.ext
  intro k hk
  have := h (BitVec.ofNat 4 k)
  simpa [State.getV, Nat.mod_eq_of_lt hk] using this

end Sys2Proof.Machine
end

