-- ==== Sys2Proof/Laws/Decode.lean ====
section
/-! SUPPORT. Nibbles, bytes and words: what the decoder's slices give on an encoded word, and how a word is its nibbles. -/

namespace Sys2Proof

/-- A word is its four nibbles. -/
theorem word_of_nibbles (op : Word) :
    nibbleAt op 12 ++ nibbleAt op 8 ++ nibbleAt op 4 ++ nibbleAt op 0 = op := by
  apply BitVec.eq_of_getLsbD_eq
  intro k hk
  simp only [nibbleAt, BitVec.getLsbD_append, BitVec.getLsbD_extractLsb']
  by_cases h0 : k < 4
  · simp [h0]
  by_cases h1 : k - 4 < 4
  · simp [h0, h1, show 4 + (k - 4) = k by omega]
  by_cases h2 : k - 4 - 4 < 4
  · simp [h0, h1, h2, show 8 + (k - 4 - 4) = k by omega]
  · have : k - 4 - 4 - 4 < 4 := by omega
    simp [h0, h1, h2, this, show 12 + (k - 4 - 4 - 4) = k by omega]

/-- Bit by bit, a word written as four nibbles. -/
theorem getLsbD_four_nibbles (f x y n : BitVec 4) (j : Nat) :
    (f ++ x ++ y ++ n : Word).getLsbD j =
      if j < 4 then n.getLsbD j else if j - 4 < 4 then y.getLsbD (j - 4)
      else if j - 4 - 4 < 4 then x.getLsbD (j - 4 - 4) else f.getLsbD (j - 4 - 4 - 4) := by
  show BitVec.getLsbD (w := 4 + 4 + 4 + 4) (f ++ x ++ y ++ n) j = _
  simp only [BitVec.getLsbD_append]

/-- The nibbles of a word written as four nibbles. -/
theorem nibbles_of_append (f x y n : BitVec 4) :
    nibbleAt (f ++ x ++ y ++ n) 12 = f ∧ nibbleAt (f ++ x ++ y ++ n) 8 = x ∧
    nibbleAt (f ++ x ++ y ++ n) 4 = y ∧ nibbleAt (f ++ x ++ y ++ n) 0 = n := by
  refine ⟨?_, ?_, ?_, ?_⟩ <;> apply BitVec.eq_of_getLsbD_eq <;> intro k hk <;>
    rw [nibbleAt, BitVec.getLsbD_extractLsb', getLsbD_four_nibbles] <;> simp only [hk, decide_true, Bool.true_and]
  · rw [if_neg (by omega), if_neg (by omega), if_neg (by omega), show 12 + k - 4 - 4 - 4 = k by omega]
  · rw [if_neg (by omega), if_neg (by omega), if_pos (by omega), show 8 + k - 4 - 4 = k by omega]
  · rw [if_neg (by omega), if_pos (by omega), show 4 + k - 4 = k by omega]
  · rw [if_pos (by omega), Nat.zero_add]

/-- Decoding four nibbles. -/
theorem decodeWord_append (f x y n : BitVec 4) : decodeWord (f ++ x ++ y ++ n) = decodeNibbles f x y n := by
  obtain ⟨h1, h2, h3, h4⟩ := nibbles_of_append f x y n
  rw [decodeWord, h1, h2, h3, h4]

/-- A byte immediate is its two nibbles. -/
theorem byte_nibbles (kk : Byte) : ∃ y n : BitVec 4, kk = y ++ n := by
  refine ⟨kk.extractLsb' 4 4, kk.extractLsb' 0 4, BitVec.eq_of_getLsbD_eq fun k hk => ?_⟩
  simp only [BitVec.getLsbD_append, BitVec.getLsbD_extractLsb']
  by_cases h : k < 4
  · simp [h]
  · simp [h, show k - 4 < 4 by omega, show 4 + (k - 4) = k by omega]

/-- An address immediate is its three nibbles. -/
theorem addr_nibbles (nnn : Addr12) : ∃ x y n : BitVec 4, nnn = x ++ y ++ n := by
  refine ⟨nnn.extractLsb' 8 4, nnn.extractLsb' 4 4, nnn.extractLsb' 0 4, BitVec.eq_of_getLsbD_eq fun k hk => ?_⟩
  simp only [BitVec.getLsbD_append, BitVec.getLsbD_extractLsb']
  by_cases h0 : k < 4
  · simp [h0]
  by_cases h1 : k - 4 < 4
  · simp [h0, h1, show 4 + (k - 4) = k by omega]
  · simp [h0, h1, show k - 4 - 4 < 4 by omega, show 8 + (k - 4 - 4) = k by omega]

/-- Family, register and byte as four nibbles. -/
theorem append_byte (f x y n : BitVec 4) : (f ++ x ++ (y ++ n) : BitVec 16) = f ++ x ++ y ++ n := by
  have := BitVec.append_assoc (x₁ := f ++ x) (x₂ := y) (x₃ := n)
  simpa using this.symm

/-- Family and address as four nibbles. -/
theorem append_addr (f x y n : BitVec 4) : (f ++ (x ++ y ++ n) : BitVec 16) = f ++ x ++ y ++ n := by
  apply BitVec.eq_of_getLsbD_eq
  intro k hk
  simp only [BitVec.getLsbD_append]
  by_cases h0 : k < 4
  · simp [h0, show k < 4 + 4 + 4 by omega]
  by_cases h1 : k - 4 < 4
  · simp [h0, h1, show k < 4 + 4 + 4 by omega]
  by_cases h2 : k - 4 - 4 < 4
  · simp [h0, h1, h2, show k < 4 + 4 + 4 by omega]
  · simp [h0, h1, h2, show ¬ k < 4 + 4 + 4 by omega, show k - (4 + 4 + 4) = k - 4 - 4 - 4 by omega]

/-- The word read back from its own two bytes. -/
theorem wordOfBytes_bytesOfWord (op : Word) : wordOfBytes (op.extractLsb' 8 8) (op.extractLsb' 0 8) = op := by
  apply BitVec.eq_of_getLsbD_eq
  intro k hk
  simp only [wordOfBytes, BitVec.getLsbD_append, BitVec.getLsbD_extractLsb']
  by_cases h : k < 8
  · simp [h]
  · simp [h, show k - 8 < 8 by omega, show 8 + (k - 8) = k by omega]

/-- Decoding the bytes of a word decodes the word and leaves the rest. -/
theorem decodeBytes_bytesOfWord (op : Word) (rest : List Byte) :
    decodeBytes (bytesOfWord op ++ rest) = match decodeWord op with
      | .ok i => .ok i rest
      | .reject why => .reject why := by
  cases h : decodeWord op <;> simp [bytesOfWord, decodeBytes, wordOfBytes_bytesOfWord, h]

/-- A big-endian word as a number (20_memory.md R40). -/
theorem wordOfBytes_toNat (hi lo : Byte) : (wordOfBytes hi lo).toNat = hi.toNat * 256 + lo.toNat := by
  have := lo.isLt
  rw [wordOfBytes, BitVec.toNat_append, Nat.shiftLeft_eq, Nat.mul_comm, ← Nat.two_pow_add_eq_or_of_lt this,
    Nat.mul_comm]

/-- The sixteen values of a nibble. -/
theorem nibble_cases (f : BitVec 4) :
    f = 0#4 ∨ f = 1#4 ∨ f = 2#4 ∨ f = 3#4 ∨ f = 4#4 ∨ f = 5#4 ∨ f = 6#4 ∨ f = 7#4 ∨
    f = 8#4 ∨ f = 9#4 ∨ f = 10#4 ∨ f = 11#4 ∨ f = 12#4 ∨ f = 13#4 ∨ f = 14#4 ∨ f = 15#4 := by
  revert f; decide

/-- Decoding a word of a family with an address. -/
theorem decodeWord_addr (f : BitVec 4) (nnn : Addr12) :
    ∃ x y n, nnn = x ++ y ++ n ∧ decodeWord (f ++ nnn) = decodeNibbles f x y n := by
  obtain ⟨x, y, n, rfl⟩ := addr_nibbles nnn
  exact ⟨x, y, n, rfl, by rw [append_addr, decodeWord_append]⟩

/-- Decoding a word of a family with a register and a byte. -/
theorem decodeWord_byte (f x : BitVec 4) (kk : Byte) :
    ∃ y n, kk = y ++ n ∧ decodeWord (f ++ x ++ kk) = decodeNibbles f x y n := by
  obtain ⟨y, n, rfl⟩ := byte_nibbles kk
  exact ⟨y, n, rfl, by rw [append_byte, decodeWord_append]⟩

/-- Two bit fields side by side, as a number. -/
theorem toNat_append_eq {a b : Nat} (u : BitVec a) (v : BitVec b) : (u ++ v).toNat = u.toNat * 2 ^ b + v.toNat := by
  rw [BitVec.toNat_append, Nat.shiftLeft_eq, Nat.mul_comm, ← Nat.two_pow_add_eq_or_of_lt v.isLt]

/-- A word of four nibbles as a number. -/
theorem four_nibbles_toNat (f x y n : BitVec 4) :
    (f ++ x ++ y ++ n : Word).toNat = f.toNat * 4096 + x.toNat * 256 + y.toNat * 16 + n.toNat := by
  show (f ++ x ++ y ++ n : BitVec (4 + 4 + 4 + 4)).toNat = _
  rw [toNat_append_eq, toNat_append_eq, toNat_append_eq]
  omega

/-- A byte of two nibbles as a number. -/
theorem two_nibbles_toNat (y n : BitVec 4) : (y ++ n : Byte).toNat = y.toNat * 16 + n.toNat :=
  toNat_append_eq y n

end Sys2Proof
end

