-- ==== Sys2Proof/Laws/Memory.lean ====
section
/-! SUPPORT. The laws of memory: read after write, every operation keeps the canonical form, and two canonical memories
that read the same are the same list. -/

namespace Sys2Proof.Machine

/-! ### One byte -/

theorem Memory.read_cons (c : Host.Cell) (m : Memory) (a : Nat) :
    Memory.read (c :: m) a = if c.1 = a then c.2 else m.read a := rfl

theorem Memory.read_drop (m : Memory) (a c : Nat) :
    (m.drop a).read c = if c = a then Memory.unlisted a else m.read c := by
  induction m with
  | nil => simp [Memory.drop, Memory.read]; rintro rfl; rfl
  | cons d m ih =>
    have ih : Memory.read (List.filter (fun e => e.1 != a) m) c = if c = a then Memory.unlisted a else Memory.read m c := ih
    simp only [Memory.drop, List.filter_cons, Memory.read_cons]
    split <;> rename_i hd
    · simp only [Memory.read_cons, ih]
      have hd : d.1 ≠ a := by simpa using hd
      by_cases hc : c = a
      · simp [hc, hd]
      · simp [hc]
    · have hd : d.1 = a := by simpa using hd
      rw [ih]
      by_cases hc : c = a
      · simp [hc]
      · simp [hc, hd, Ne.symm hc]

theorem Memory.read_insert (m : Memory) (a c : Nat) (b : Byte) (h : ∀ d ∈ m, d.1 ≠ a) :
    (m.insert a b).read c = if c = a then b else m.read c := by
  induction m with
  | nil => simp [Memory.insert, Memory.read, eq_comm]
  | cons d m ih =>
    simp only [Memory.insert]
    split
    · simp [Memory.read_cons, eq_comm]
    · rw [Memory.read_cons, ih fun e he => h e (List.mem_cons_of_mem _ he), Memory.read_cons]
      have := h d List.mem_cons_self
      by_cases hc : c = a
      · simp [hc, this]
      · simp [hc]

theorem Memory.drop_keys (m : Memory) (a : Nat) : ∀ d ∈ m.drop a, d.1 ≠ a := by
  intro d hd
  simpa using (List.mem_filter.mp hd).2

/-- A byte written is read back, and every other address reads as before, in any memory. -/
@[simp] theorem Memory.read_write (m : Memory) (a c : Nat) (b : Byte) :
    (m.write a b).read c = if c = a then b else m.read c := by
  unfold Memory.write
  split
  · simp_all [Memory.read_drop]
  · rw [Memory.read_insert _ _ _ _ (m.drop_keys a), Memory.read_drop]
    split <;> simp_all

/-! ### Consecutive bytes -/

/-- After consecutive writes an address inside the range reads its byte, every other address as before. -/
theorem Memory.read_writeBytes (m : Memory) (a c : Nat) (bs : List Byte) :
    (m.writeBytes a bs).read c = if h : a ≤ c ∧ c < a + bs.length then bs[c - a]'(by omega) else m.read c := by
  induction bs generalizing m a with
  | nil => simp [Memory.writeBytes]
  | cons b bs ih =>
    rw [Memory.writeBytes, ih]
    by_cases h1 : a + 1 ≤ c ∧ c < a + 1 + bs.length
    · rw [dif_pos h1, dif_pos ⟨by omega, by simp; omega⟩]
      simp [List.getElem_cons, show c - a ≠ 0 by omega, show c - a - 1 = c - (a + 1) by omega]
    · rw [dif_neg h1, Memory.read_write]
      by_cases h2 : c = a
      · subst h2; simp
      · have : ¬(a ≤ c ∧ c < a + (b :: bs).length) := by simp only [List.length_cons]; omega
        rw [dif_neg this, if_neg h2]

theorem Memory.length_readBytes (m : Memory) (a len : Nat) : (m.readBytes a len).length = len := by
  simp [Memory.readBytes]

theorem Memory.getElem_readBytes (m : Memory) (a len k : Nat) (h : k < (m.readBytes a len).length) :
    (m.readBytes a len)[k] = m.read (a + k) := by
  simp [Memory.readBytes]

/-! ### The canonical form -/

theorem Memory.wf_nil : Memory.wf [] := by simp [Memory.wf]

theorem Memory.wf_drop {m : Memory} (h : m.wf) (a : Nat) : (m.drop a).wf :=
  ⟨h.1.filter _, fun c hc => h.2 c (List.mem_filter.mp hc).1⟩

theorem Memory.mem_insert {m : Memory} {a : Nat} {b : Byte} {c : Host.Cell} (h : c ∈ m.insert a b) :
    c = (a, b) ∨ c ∈ m := by
  induction m with
  | nil => simpa [Memory.insert] using h
  | cons d m ih =>
    simp only [Memory.insert] at h
    split at h
    · simpa using h
    · rcases List.mem_cons.mp h with h | h
      · exact .inr (h ▸ List.mem_cons_self)
      · exact (ih h).imp_right (List.mem_cons_of_mem _)

theorem Memory.wf_insert {m : Memory} (h : m.wf) {a : Nat} {b : Byte} (ha : a ≤ 0xFFF) (hb : b ≠ Memory.unlisted a)
    (hk : ∀ d ∈ m, d.1 ≠ a) : (m.insert a b).wf := by
  constructor
  · induction m with
    | nil => simp [Memory.insert]
    | cons d m ih =>
      have hp := List.pairwise_cons.mp h.1
      simp only [Memory.insert]
      split <;> rename_i hlt
      · refine List.pairwise_cons.mpr ⟨fun c hc => ?_, h.1⟩
        rcases List.mem_cons.mp hc with rfl | hc
        · exact hlt
        · exact Nat.lt_trans hlt (hp.1 c hc)
      · refine List.pairwise_cons.mpr ⟨fun c hc => ?_,
          ih ⟨hp.2, fun c hc => h.2 c (List.mem_cons_of_mem _ hc)⟩ fun e he => hk e (List.mem_cons_of_mem _ he)⟩
        rcases Memory.mem_insert hc with rfl | hc
        · have := hk d List.mem_cons_self
          change d.1 < a
          omega
        · exact hp.1 c hc
  · intro c hc
    rcases Memory.mem_insert hc with rfl | hc
    · exact ⟨ha, hb⟩
    · exact h.2 c hc

/-- A write of a byte in range keeps the canonical form. -/
theorem Memory.wf_write {m : Memory} (h : m.wf) {a : Nat} (b : Byte) (ha : a ≤ 0xFFF) : (m.write a b).wf := by
  unfold Memory.write
  split <;> rename_i hb
  · exact Memory.wf_drop h a
  · exact Memory.wf_insert (Memory.wf_drop h a) ha hb (m.drop_keys a)

/-- So do consecutive writes in range. -/
theorem Memory.wf_writeBytes {m : Memory} (h : m.wf) (a : Nat) (bs : List Byte) (ha : a + bs.length ≤ 0x1000) :
    (m.writeBytes a bs).wf := by
  induction bs generalizing m a with
  | nil => exact h
  | cons b bs ih =>
    simp only [List.length_cons] at ha
    exact ih (Memory.wf_write h b (by omega)) (a + 1) (by omega)

/-- The memory of State.reset has the canonical form. -/
theorem State.reset_mem_wf : State.reset.mem.wf := Memory.wf_nil

/-! ### One list per memory image -/

theorem Memory.read_of_lt {m : Memory} {a : Nat} (h : ∀ d ∈ m, a < d.1) : m.read a = Memory.unlisted a := by
  induction m with
  | nil => rfl
  | cons d m ih =>
    have := h d List.mem_cons_self
    rw [Memory.read_cons, if_neg (by omega), ih fun e he => h e (List.mem_cons_of_mem _ he)]

theorem Memory.wf_tail {c : Host.Cell} {m : Memory} (h : Memory.wf (c :: m)) : Memory.wf m :=
  ⟨(List.pairwise_cons.mp h.1).2, fun d hd => h.2 d (List.mem_cons_of_mem _ hd)⟩

/-- Two canonical memories that read the same at every address are the same data. -/
theorem Memory.ext_of_wf {m m' : Memory} (h : m.wf) (h' : m'.wf) (e : ∀ a, m.read a = m'.read a) : m = m' := by
  induction m generalizing m' with
  | nil =>
    cases m' with
    | nil => rfl
    | cons c m' =>
      have := e c.1
      simp only [if_true, Memory.read] at this
      exact absurd this.symm (h'.2 c List.mem_cons_self).2
  | cons c m ih =>
    cases m' with
    | nil =>
      have := e c.1
      simp only [if_true, Memory.read] at this
      exact absurd this (h.2 c List.mem_cons_self).2
    | cons c' m' =>
      have lt := (List.pairwise_cons.mp h.1).1
      have lt' := (List.pairwise_cons.mp h'.1).1
      have key : c.1 = c'.1 := by
        rcases Nat.lt_trichotomy c.1 c'.1 with hlt | heq | hgt
        · have hr := e c.1
          rw [Memory.read_cons, if_pos rfl, Memory.read_of_lt] at hr
          · exact absurd hr (h.2 c List.mem_cons_self).2
          · intro d hd
            rcases List.mem_cons.mp hd with rfl | hd
            · exact hlt
            · exact Nat.lt_trans hlt (lt' d hd)
        · exact heq
        · have hr := e c'.1
          rw [Memory.read_cons (c := c'), if_pos rfl, Memory.read_of_lt] at hr
          · exact absurd hr.symm (h'.2 c' List.mem_cons_self).2
          · intro d hd
            rcases List.mem_cons.mp hd with rfl | hd
            · exact hgt
            · exact Nat.lt_trans hgt (lt d hd)
      have val : c.2 = c'.2 := by
        have hr := e c.1
        simpa [Memory.read_cons, key] using hr
      have tail : m = m' := by
        refine ih (Memory.wf_tail h) (Memory.wf_tail h') fun a => ?_
        by_cases ha : c.1 = a
        · rw [Memory.read_of_lt fun d hd => ha ▸ lt d hd, Memory.read_of_lt fun d hd => ha ▸ key ▸ lt' d hd]
        · have hr := e a
          rwa [Memory.read_cons, if_neg ha, Memory.read_cons, if_neg (key ▸ ha)] at hr
      rw [tail, Prod.ext key val]

end Sys2Proof.Machine
end

