-- ==== Sys2Proof/Laws/Display.lean ====
section
/-! SUPPORT. The laws of the framebuffer: what one toggle, one sprite row and one sprite do to every pixel, and when they
collide (44_display.md R116 to R118). -/

namespace Sys2Proof.Machine

/-! ### Pixels -/

theorem FrameBuffer.pixel_of_le {fb : FrameBuffer} {px py : Nat} (h : 64 ≤ px) : fb.pixel px py = false := by
  unfold FrameBuffer.pixel
  split
  · exact BitVec.getLsbD_of_ge _ _ h
  · rfl

/-- A toggle inverts its pixel and leaves every other pixel alone. -/
theorem FrameBuffer.pixel_toggle (fb : FrameBuffer) {px py : Nat} (hx : px < 64) (hy : py < 32) (qx qy : Nat) :
    (fb.toggle px py).pixel qx qy = if px = qx ∧ py = qy then !fb.pixel qx qy else fb.pixel qx qy := by
  by_cases hq : qy < 32
  · simp only [FrameBuffer.toggle, FrameBuffer.pixel, hy, hq, dif_pos, Vector.getElem_set]
    by_cases e : py = qy
    · subst e
      by_cases ex : px = qx
      · subst ex; simp [hx]
      · simp [ex, BitVec.getLsbD_twoPow]
    · simp [e]
  · have : py ≠ qy := by omega
    simp [FrameBuffer.pixel, hq, this]

/-- A cleared framebuffer has no pixel set. -/
@[simp] theorem FrameBuffer.pixel_clear (px py : Nat) : FrameBuffer.clear.pixel px py = false := by
  simp [FrameBuffer.pixel, FrameBuffer.clear]

/-- Framebuffers with the same 2048 pixels are the same data. -/
theorem FrameBuffer.ext_pixel {fb fb' : FrameBuffer}
    (h : ∀ px py, px < 64 → py < 32 → fb.pixel px py = fb'.pixel px py) : fb = fb' := by
  apply Vector.ext
  intro py hy
  apply BitVec.eq_of_getLsbD_eq
  intro px hx
  simpa [FrameBuffer.pixel, hy] using h px py hx hy

/-! ### One row -/

/-- Pixel (qx, qy) lies under one of the first m bits of a sprite row. -/
def RowCovers (cx cy : Nat) (byte : Byte) (m qx qy : Nat) : Prop :=
  ∃ b, b < m ∧ byte.getLsbD (7 - b) = true ∧ (cx + b) % 64 = qx ∧ cy % 32 = qy

theorem rowCovers_succ {cx cy : Nat} {byte : Byte} {m qx qy : Nat} :
    RowCovers cx cy byte (m + 1) qx qy ↔
      RowCovers cx cy byte m qx qy ∨ (byte.getLsbD (7 - m) = true ∧ (cx + m) % 64 = qx ∧ cy % 32 = qy) := by
  constructor
  · rintro ⟨b, hb, h⟩
    by_cases e : b = m
    · exact .inr (e ▸ h)
    · exact .inl ⟨b, by omega, h⟩
  · rintro (⟨b, hb, h⟩ | h)
    · exact ⟨b, by omega, h⟩
    · exact ⟨m, by omega, h⟩

/-- What the first m bits of a row do: covered pixels are inverted, the others kept, and the collision flag is set exactly
when a covered pixel was set. -/
theorem FrameBuffer.drawBits_spec (fb : FrameBuffer) (cx cy : Nat) (byte : Byte) (m : Nat) (hm : m ≤ 8) :
    let r := (List.range m).foldl (FrameBuffer.drawBit cx cy byte) (fb, false)
    (∀ qx qy, (RowCovers cx cy byte m qx qy → r.1.pixel qx qy = !fb.pixel qx qy) ∧
      (¬RowCovers cx cy byte m qx qy → r.1.pixel qx qy = fb.pixel qx qy)) ∧
    (r.2 = true ↔ ∃ qx qy, RowCovers cx cy byte m qx qy ∧ fb.pixel qx qy = true) := by
  induction m with
  | zero => simp [RowCovers]
  | succ m ih =>
    obtain ⟨hp, hc⟩ := ih (by omega)
    simp only [List.range_succ, List.foldl_append, List.foldl_cons, List.foldl_nil]
    generalize (List.range m).foldl (FrameBuffer.drawBit cx cy byte) (fb, false) = r at hp hc ⊢
    have fresh : ¬RowCovers cx cy byte m ((cx + m) % 64) (cy % 32) := by
      rintro ⟨b, hb, -, hx, -⟩
      omega
    unfold FrameBuffer.drawBit
    by_cases hbit : byte.getLsbD (7 - m) = true
    · rw [if_pos hbit]
      refine ⟨fun qx qy => ?_, ?_⟩
      · simp only [FrameBuffer.pixel_toggle r.1 (Nat.mod_lt _ (by decide : 0 < 64)) (Nat.mod_lt _ (by decide : 0 < 32))]
        by_cases hq : (cx + m) % 64 = qx ∧ cy % 32 = qy
        · obtain ⟨rfl, rfl⟩ := hq
          simp [rowCovers_succ, hbit, (hp _ _).2 fresh]
        · simp only [hq, if_false, rowCovers_succ, hbit, true_and, or_false]
          exact hp qx qy
      · simp only [Bool.or_eq_true, hc, (hp _ _).2 fresh, rowCovers_succ, hbit, true_and]
        constructor
        · rintro (⟨qx, qy, h, hs⟩ | h)
          · exact ⟨qx, qy, .inl h, hs⟩
          · exact ⟨_, _, .inr ⟨rfl, rfl⟩, h⟩
        · rintro ⟨qx, qy, h | ⟨rfl, rfl⟩, hs⟩
          · exact .inl ⟨qx, qy, h, hs⟩
          · exact .inr hs
    · rw [if_neg hbit]
      simpa only [rowCovers_succ, hbit, Bool.false_eq_true, false_and, or_false] using And.intro hp hc

/-- `DrawRow` (R116). -/
theorem FrameBuffer.drawRow_spec (fb : FrameBuffer) (cx cy : Nat) (byte : Byte) :
    (∀ qx qy, (RowCovers cx cy byte 8 qx qy → (fb.drawRow cx cy byte).1.pixel qx qy = !fb.pixel qx qy) ∧
      (¬RowCovers cx cy byte 8 qx qy → (fb.drawRow cx cy byte).1.pixel qx qy = fb.pixel qx qy)) ∧
    ((fb.drawRow cx cy byte).2 = true ↔ ∃ qx qy, RowCovers cx cy byte 8 qx qy ∧ fb.pixel qx qy = true) :=
  FrameBuffer.drawBits_spec fb cx cy byte 8 (Nat.le_refl 8)

/-! ### One sprite -/

/-- Pixel (qx, qy) lies under a bit of the sprite whose rows are given. -/
def RowsCover (cx cy : Nat) (rows : List Byte) (qx qy : Nat) : Prop :=
  ∃ row, ∃ h : row < rows.length, RowCovers cx (cy + row) rows[row] 8 qx qy

theorem rowsCover_cons {cx cy : Nat} {byte : Byte} {rows : List Byte} {qx qy : Nat} :
    RowsCover cx cy (byte :: rows) qx qy ↔ RowCovers cx cy byte 8 qx qy ∨ RowsCover cx (cy + 1) rows qx qy := by
  constructor
  · rintro ⟨row, h, hc⟩
    cases row with
    | zero => exact .inl hc
    | succ row => exact .inr ⟨row, by simpa using h, by simpa [Nat.add_assoc, Nat.add_comm 1 row] using hc⟩
  · rintro (h | ⟨row, h, hc⟩)
    · exact ⟨0, by simp, h⟩
    · exact ⟨row + 1, by simpa using h, by simpa [Nat.add_assoc, Nat.add_comm 1 row] using hc⟩

/-- What a sprite of at most 32 rows does: the rows fall on distinct framebuffer rows, so a covered pixel is inverted once,
the others are kept, and the collision is that some covered pixel was set before (R117). -/
theorem FrameBuffer.drawSprite_spec (fb : FrameBuffer) (cx cy : Nat) (rows : List Byte) (hl : rows.length ≤ 32) :
    (∀ qx qy, (RowsCover cx cy rows qx qy → (fb.drawSprite cx cy rows).1.pixel qx qy = !fb.pixel qx qy) ∧
      (¬RowsCover cx cy rows qx qy → (fb.drawSprite cx cy rows).1.pixel qx qy = fb.pixel qx qy)) ∧
    ((fb.drawSprite cx cy rows).2 = true ↔ ∃ qx qy, RowsCover cx cy rows qx qy ∧ fb.pixel qx qy = true) := by
  induction rows generalizing fb cy with
  | nil => simp [RowsCover, FrameBuffer.drawSprite]
  | cons byte rows ih =>
    simp only [List.length_cons] at hl
    obtain ⟨hp, hc⟩ := fb.drawRow_spec cx cy byte
    obtain ⟨ip, ic⟩ := ih (fb.drawRow cx cy byte).1 (cy + 1) (by omega)
    have apart : ∀ qx qy, RowCovers cx cy byte 8 qx qy → ¬RowsCover cx (cy + 1) rows qx qy := by
      rintro qx qy ⟨b, -, -, -, h1⟩ ⟨row, hr, b', -, -, -, h2⟩
      omega
    simp only [FrameBuffer.drawSprite, rowsCover_cons]
    refine ⟨fun qx qy => ⟨?_, ?_⟩, ?_⟩
    · rintro (h | h)
      · rw [(ip qx qy).2 (apart qx qy h), (hp qx qy).1 h]
      · rw [(ip qx qy).1 h, (hp qx qy).2 fun h' => apart qx qy h' h]
    · intro h
      rw [not_or] at h
      rw [(ip qx qy).2 h.2, (hp qx qy).2 h.1]
    · simp only [Bool.or_eq_true, hc, ic]
      constructor
      · rintro (⟨qx, qy, h, hs⟩ | ⟨qx, qy, h, hs⟩)
        · exact ⟨qx, qy, .inl h, hs⟩
        · exact ⟨qx, qy, .inr h, by rwa [(hp qx qy).2 fun h' => apart qx qy h' h] at hs⟩
      · rintro ⟨qx, qy, h | h, hs⟩
        · exact .inl ⟨qx, qy, h, hs⟩
        · exact .inr ⟨qx, qy, h, by rwa [(hp qx qy).2 fun h' => apart qx qy h' h]⟩

/-! ### The sprite of an instruction -/

/-- The pixels of a DRW are the pixels of the rows it reads. -/
theorem spriteCovers_iff (s : State) (x y : Reg) (n : Nibble) (px py : Nat) :
    SpriteCovers s x y n px py ↔
      RowsCover (s.getV x).toNat (s.getV y).toNat (s.mem.readBytes s.base n.toNat) px py := by
  constructor
  · rintro ⟨row, b, hr, hb, hbit, hx, hy⟩
    refine ⟨row, by rw [Memory.length_readBytes]; exact hr, b, hb, ?_, hx, hy⟩
    rw [Memory.getElem_readBytes]; exact hbit
  · rintro ⟨row, hr, b, hb, hbit, hx, hy⟩
    rw [Memory.length_readBytes] at hr
    rw [Memory.getElem_readBytes] at hbit
    exact ⟨row, b, hr, hb, hbit, hx, hy⟩

/-- They lie on the screen. -/
theorem spriteCovers_bound {s : State} {x y : Reg} {n : Nibble} {px py : Nat} (h : SpriteCovers s x y n px py) :
    px < 64 ∧ py < 32 := by
  obtain ⟨row, b, -, -, -, hx, hy⟩ := h
  omega

end Sys2Proof.Machine
end

