-- ==== Sys2Proof/Laws/Ops.lean ====
section
/-! SUPPORT. One lemma per shared operation that says once everything it can do; the claims cite these and never unfold the
operation. -/

namespace Sys2Proof.Machine

/-! ### Memory accesses -/

theorem State.memRead_eq_some {s : State} {a : Nat} {b : Byte} :
    s.memRead a = some b ↔ a ≤ 0xFFF ∧ s.mem.read a = b := by
  unfold State.memRead
  split <;> rename_i h
  · simp; omega
  · simp; omega

theorem State.memRead_eq_none {s : State} {a : Nat} : s.memRead a = none ↔ 0xFFF < a := by
  simp [State.memRead]

theorem State.memReadWord_eq_some {s : State} {a : Nat} {w : Word} :
    s.memReadWord a = some w ↔ a ≤ 0xFFE ∧ wordOfBytes (s.mem.read a) (s.mem.read (a + 1)) = w := by
  unfold State.memReadWord
  split <;> rename_i h
  · simp; omega
  · simp; omega

theorem State.memReadWord_eq_none {s : State} {a : Nat} : s.memReadWord a = none ↔ 0xFFE < a := by
  simp [State.memReadWord]; omega

theorem State.memWrite_eq_some {s t : State} {a : Nat} {b : Byte} :
    s.memWrite a b = some t ↔ a ≤ 0xFFF ∧ t = { s with mem := s.mem.write a b } := by
  unfold State.memWrite
  split <;> rename_i h
  · simp; omega
  · simp only [Option.some.injEq]
    exact ⟨fun e => ⟨by omega, e.symm⟩, fun e => e.2.symm⟩

theorem Memory.rangeOk_iff {a len : Nat} : Memory.rangeOk a len = true ↔ len = 0 ∨ a + len - 1 ≤ 0xFFF := by
  simp [Memory.rangeOk]

theorem State.loadBytes_eq_some {s : State} {a len : Nat} {bs : List Byte} :
    s.loadBytes a len = some bs ↔ Memory.rangeOk a len = true ∧ bs = s.mem.readBytes a len := by
  unfold State.loadBytes
  split <;> rename_i h
  · simp only [Option.some.injEq, h, true_and]; exact eq_comm
  · simp [h]

theorem State.storeBytes_eq_some {s t : State} {a : Nat} {bs : List Byte} :
    s.storeBytes a bs = some t ↔ Memory.rangeOk a bs.length = true ∧ t = { s with mem := s.mem.writeBytes a bs } := by
  unfold State.storeBytes
  split <;> rename_i h
  · simp only [Option.some.injEq, h, true_and]; exact eq_comm
  · simp [h]

/-- What every byte reads as after a store: a byte of the store inside its range, the old byte outside. -/
theorem State.memRead_store (s : State) (a c : Nat) (bs : List Byte) :
    State.memRead { s with mem := s.mem.writeBytes a bs } c =
      if 0xFFF < c then none
      else if h : a ≤ c ∧ c < a + bs.length then some (bs[c - a]'(by omega)) else s.memRead c := by
  unfold State.memRead
  split
  · rfl
  · simp only [Memory.read_writeBytes]
    split <;> rfl

/-! ### Register ranges -/

/-- Loading registers from number k on: the loaded ones hold their byte, the others are kept. -/
theorem State.getV_setRegs (s : State) (k : Nat) (bs : List Byte) (hk : k + bs.length ≤ 16) (r : Reg) :
    (s.setRegs k bs).getV r =
      if h : k ≤ r.toNat ∧ r.toNat < k + bs.length then bs[r.toNat - k]'(by omega) else s.getV r := by
  induction bs generalizing s k with
  | nil => simp [State.setRegs]
  | cons b bs ih =>
    simp only [List.length_cons] at hk
    rw [State.setRegs, ih _ _ (by omega)]
    by_cases h1 : k + 1 ≤ r.toNat ∧ r.toNat < k + 1 + bs.length
    · rw [dif_pos h1, dif_pos ⟨by omega, by simp only [List.length_cons]; omega⟩]
      simp [List.getElem_cons, show r.toNat - k ≠ 0 by omega, show r.toNat - k - 1 = r.toNat - (k + 1) by omega]
    · rw [dif_neg h1, State.getV_setV]
      by_cases h2 : r.toNat = k
      · have : r = BitVec.ofNat 4 k := by rw [← h2]; simp
        simp [this, show k % 16 = k by omega]
      · have hne : r ≠ BitVec.ofNat 4 k := by
          intro e
          apply h2
          rw [e, BitVec.toNat_ofNat]
          omega
        rw [if_neg hne, dif_neg (by simp only [List.length_cons]; omega)]

/-- Loading registers changes the register file alone. -/
theorem State.setRegs_eq (s : State) (k : Nat) (bs : List Byte) : s.setRegs k bs = { s with v := (s.setRegs k bs).v } := by
  induction bs generalizing s k with
  | nil => rfl
  | cons b bs ih => rw [State.setRegs, ih]; rfl

theorem State.length_regsUpTo (s : State) (x : Reg) : (s.regsUpTo x).length = x.toNat + 1 := by
  simp [State.regsUpTo]

theorem State.getElem_regsUpTo (s : State) (x : Reg) (k : Nat) (h : k < (s.regsUpTo x).length) :
    (s.regsUpTo x)[k] = s.getV (BitVec.ofNat 4 k) := by
  simp [State.regsUpTo]

/-! ### Stack -/

theorem State.push_eq_none {s : State} {w : Word} : s.push w = none ↔ s.sp = 16 := by
  have := s.sp.isLt
  simp only [State.push, Fin.ext_iff]
  split <;> simp <;> omega

/-- A push that succeeds writes the slot SP and moves SP up by one. -/
theorem State.push_eq_some {s t : State} {w : Word} :
    s.push w = some t ↔ ∃ h : s.sp.val < 16,
      t = { s with stack := s.stack.set s.sp.val w h, sp := ⟨s.sp.val + 1, by omega⟩ } := by
  unfold State.push
  split <;> rename_i h
  · simp [h, eq_comm]
  · simp [h]

theorem State.pop_eq_none {s : State} : s.pop = none ↔ s.sp = 0 := by
  simp only [State.pop, Fin.ext_iff]
  split <;> simp <;> omega

/-- A pop that succeeds answers the slot below SP and moves SP down by one. -/
theorem State.pop_eq_some {s t : State} {w : Word} :
    s.pop = some (w, t) ↔ ∃ h : 0 < s.sp.val,
      w = s.stack[s.sp.val - 1]'(by have := s.sp.isLt; omega) ∧
      t = { s with sp := ⟨s.sp.val - 1, by have := s.sp.isLt; omega⟩ } := by
  unfold State.pop
  split <;> rename_i h
  · simp [h, eq_comm]
  · simp [h]

/-! ### Keypad -/

theorem State.keyLatch_eq_some {s : State} {k : Nat} {b : Bool} :
    s.keyLatch k = some b ↔ ∃ h : k < 16, s.key[k]'h = b := by
  unfold State.keyLatch
  split <;> rename_i h
  · simp [h]
  · simp [h]

theorem State.keyLatch_eq_none {s : State} {k : Nat} : s.keyLatch k = none ↔ 15 < k := by
  unfold State.keyLatch
  split <;> simp <;> omega

/-- A key event changes the latch alone. -/
theorem State.setKey_eq (s : State) (k : Nat) (b : Bool) : s.setKey k b = { s with key := (s.setKey k b).key } := by
  unfold State.setKey
  split <;> rfl

/-- The latch after a key event: that key as set, every other key as before. -/
theorem State.keyLatch_setKey (s : State) {k : Nat} (hk : k < 16) (b : Bool) (j : Nat) :
    (s.setKey k b).keyLatch j = if j = k then some b else s.keyLatch j := by
  simp only [State.setKey, hk, dif_pos, State.keyLatch]
  by_cases hj : j < 16
  · simp only [hj, dif_pos, Vector.getElem_set]
    by_cases e : k = j
    · simp [e]
    · simp [e, Ne.symm e]
  · simp [hj, show j ≠ k by omega]

/-! ### Timers and faults -/

/-- One timer step subtracts 1 and stops at 0 (40_cycle.md R75). -/
theorem countdown_toNat (t : Byte) : (countdown t).toNat = t.toNat - 1 := by
  unfold countdown
  split <;> rename_i h
  · simp [h]
  · have : t.toNat ≠ 0 := fun e => h (BitVec.eq_of_toNat_eq (by simpa using e))
    rw [BitVec.toNat_sub]
    have := t.isLt
    simp
    omega

/-- An instruction answers a next state always: its effect, or its fault entry. -/
theorem State.orRaise_eq (s : State) (i : Instr) (c : Fault) (o : Option State) :
    s.orRaise i c o = .next (o.getD (s.raise c (some (encode i)))) := by
  cases o <;> rfl

/-- Which of the two, and when. -/
theorem State.orRaise_eq_next {s t : State} {i : Instr} {c : Fault} {o : Option State} :
    s.orRaise i c o = .next t ↔ o = some t ∨ (o = none ∧ Raised s c i t) := by
  cases o <;> simp [State.orRaise, Raised, State.raise, eq_comm]

/-! ### Operands and flags -/

/-- An address immediate keeps its value in PC or I. -/
theorem addrWord_toNat (nnn : Addr12) : (addrWord nnn).toNat = nnn.toNat := by
  have := nnn.isLt
  simp [addrWord]; omega

/-- The target of JP V0 is the exact sum: it fits in 16 bits (41_control_flow.md R86). -/
theorem jumpV0Target_toNat (nnn : Addr12) (v : Byte) : (jumpV0Target nnn v).toNat = nnn.toNat + v.toNat := by
  have := nnn.isLt; have := v.isLt
  simp [jumpV0Target, BitVec.toNat_add]; omega

theorem highBit_toNat (a : Byte) : (highBit a).toNat = a.toNat / 128 := by revert a; decide

theorem lowBit_toNat (a : Byte) : (lowBit a).toNat = a.toNat % 2 := by revert a; decide

/-! ### Frames of the shared operations -/

/-- The advance of PC and a conditional skip write PC alone. -/
theorem State.frame_skipIf (s : State) (c : Bool) : Frame [.pc] s (s.advance.skipIf c) := by
  rw [State.skipIf_eq]; simp [Frame]

theorem State.run_of_push {s t : State} {w : Word} (h : s.push w = some t) : t.run = s.run := by
  obtain ⟨_, rfl⟩ := State.push_eq_some.mp h; rfl

theorem State.run_of_pop {s t : State} {w : Word} (h : s.pop = some (w, t)) : t.run = s.run := by
  obtain ⟨_, _, rfl⟩ := State.pop_eq_some.mp h; rfl

theorem State.run_of_storeBytes {s t : State} {a : Nat} {bs : List Byte} (h : s.storeBytes a bs = some t) :
    t.run = s.run := by
  obtain ⟨_, rfl⟩ := State.storeBytes_eq_some.mp h; rfl

/-- A store of at least one byte whose last address is above 0xFFF is refused as a whole. -/
theorem State.storeBytes_above {s : State} {a : Nat} {bs : List Byte} (h : bs ≠ []) (hr : 0xFFF < a + bs.length - 1) :
    s.storeBytes a bs = none := by
  have : bs.length ≠ 0 := by simpa using h
  simp [State.storeBytes, Memory.rangeOk, this]; omega

/-- A store inside memory happens. -/
theorem State.storeBytes_inside {s : State} {a : Nat} {bs : List Byte} (hr : a + bs.length - 1 ≤ 0xFFF) :
    s.storeBytes a bs = some { s with mem := s.mem.writeBytes a bs } :=
  State.storeBytes_eq_some.mpr ⟨Memory.rangeOk_iff.mpr (.inr hr), rfl⟩

/-- A store leaves every byte outside its range alone. -/
theorem State.store_outside (s : State) (a : Nat) (bs : List Byte) :
    MemSameOutside a bs.length s { s with mem := s.mem.writeBytes a bs } := by
  intro c hc
  rw [State.memRead_store, dif_neg hc]
  split
  · exact (State.memRead_eq_none.mpr (by assumption)).symm
  · rfl

/-- A store by an instruction writes PC and memory alone. -/
theorem State.frame_store (s : State) (m : Memory) : Frame [.pc, .mem] s { s.advance with mem := m } := by
  simp [Frame]; exact fun _ => rfl

/-- With the memory kept, every byte reads as before, inside a range and outside it. -/
theorem memSameOutside_of_mem_eq {s t : State} (a len : Nat) (h : t.mem = s.mem) : MemSameOutside a len s t := by
  intro c _
  simp [State.memRead, h]

/-- An instruction whose rule names PC alone writes only its parts when it advances PC and perhaps skips. -/
theorem writesOnlyItsParts_skipIf {i : Instr} (s : State) (c : Bool) (hp : partsWritten i = [.pc])
    (hb : storedBytes i = 0) : WritesOnlyItsParts i s (s.advance.skipIf c) := by
  rw [WritesOnlyItsParts, hp, hb]
  refine ⟨s.frame_skipIf c, ?_, ?_, memSameOutside_of_mem_eq _ _ ?_⟩ <;> rw [State.skipIf_eq] <;> intros <;> rfl

/-- A key event writes the latch alone. -/
theorem State.frame_setKey (s : State) (k : Nat) (b : Bool) : Frame [.key] s (s.setKey k b) := by
  rw [State.setKey_eq]; simp [Frame]; exact ⟨fun _ => rfl, fun _ => rfl⟩

/-- Every register is 0 after the first steps of start (70_reset_and_hazards.md R152). -/
@[simp] theorem State.getV_resetForStart (s : State) (r : Reg) : s.resetForStart.getV r = 0 := by
  simp [State.resetForStart, State.getV]

end Sys2Proof.Machine
end

