-- ==== Sys2Proof/Laws/PerInstr.lean ====
section
/-! SUPPORT. Per-instruction statements about the instruction as syntax: its word matches the row of 30_encoding.md R60. -/

namespace Sys2Proof.Laws.TableRow

/-- The mask of an instruction's row in R60. -/
def mask : Instr → Word
  | .cls | .ret => 0xFFFF
  | .sys _ | .jp _ | .call _ | .ldI _ | .jpV0 _ => 0xF000
  | .seImm _ _ | .sneImm _ _ | .ldImm _ _ | .addImm _ _ | .rnd _ _ | .drw _ _ _ => 0xF000
  | .seReg _ _ | .sneReg _ _ => 0xF00F
  | .ldReg _ _ | .orReg _ _ | .andReg _ _ | .xorReg _ _ | .addReg _ _ | .subReg _ _ => 0xF00F
  | .shr _ _ | .subnReg _ _ | .shl _ _ => 0xF00F
  | .skp _ | .sknp _ => 0xF0FF
  | .ldVxDT _ | .ldDTVx _ | .ldSTVx _ | .ldVxK _ | .addI _ | .ldF _ | .ldB _ | .ldMemVx _ | .ldVxMem _ => 0xF0FF

/-- The match of an instruction's row in R60. -/
def pattern : Instr → Word
  | .cls => 0x00E0
  | .ret => 0x00EE
  | .sys _ => 0x0000
  | .jp _ => 0x1000
  | .call _ => 0x2000
  | .seImm _ _ => 0x3000
  | .sneImm _ _ => 0x4000
  | .seReg _ _ => 0x5000
  | .sneReg _ _ => 0x9000
  | .ldImm _ _ => 0x6000
  | .addImm _ _ => 0x7000
  | .ldReg _ _ => 0x8000
  | .orReg _ _ => 0x8001
  | .andReg _ _ => 0x8002
  | .xorReg _ _ => 0x8003
  | .addReg _ _ => 0x8004
  | .subReg _ _ => 0x8005
  | .shr _ _ => 0x8006
  | .subnReg _ _ => 0x8007
  | .shl _ _ => 0x800E
  | .ldI _ => 0xA000
  | .jpV0 _ => 0xB000
  | .rnd _ _ => 0xC000
  | .drw _ _ _ => 0xD000
  | .skp _ => 0xE09E
  | .sknp _ => 0xE0A1
  | .ldVxDT _ => 0xF007
  | .ldDTVx _ => 0xF015
  | .ldSTVx _ => 0xF018
  | .ldVxK _ => 0xF00A
  | .addI _ => 0xF01E
  | .ldF _ => 0xF029
  | .ldB _ => 0xF033
  | .ldMemVx _ => 0xF055
  | .ldVxMem _ => 0xF065

/-- The word of an instruction agrees with its row's match under its row's mask. -/
def Statement (i : Instr) : Prop := encode i &&& mask i = pattern i

/-- Masking four nibbles is masking each. -/
theorem and_nibbles (f x y n a b c d : BitVec 4) :
    (f ++ x ++ y ++ n : Word) &&& (a ++ b ++ c ++ d) = (f &&& a) ++ (x &&& b) ++ (y &&& c) ++ (n &&& d) := by
  apply BitVec.eq_of_getLsbD_eq
  intro j _
  rw [BitVec.getLsbD_and, getLsbD_four_nibbles, getLsbD_four_nibbles, getLsbD_four_nibbles]
  split
  · rw [BitVec.getLsbD_and]
  split
  · rw [BitVec.getLsbD_and]
  split <;> rw [BitVec.getLsbD_and]

/-- A nibble masked by F is itself. -/
theorem and_allOnes4 : ∀ a : BitVec 4, a &&& 15#4 = a := by decide

/-- A row with the family fixed and three free nibbles. -/
theorem family_row (f x y n : BitVec 4) : (f ++ x ++ y ++ n : Word) &&& 0xF000 = f ++ 0#4 ++ 0#4 ++ 0#4 := by
  have : (0xF000 : Word) = 0xF#4 ++ 0#4 ++ 0#4 ++ 0#4 := by decide
  rw [this, and_nibbles]
  simp [and_allOnes4]

/-- A row with the family and the low nibble fixed. -/
theorem low_nibble_row (f x y n : BitVec 4) : (f ++ x ++ y ++ n : Word) &&& 0xF00F = f ++ 0#4 ++ 0#4 ++ n := by
  have : (0xF00F : Word) = 0xF#4 ++ 0#4 ++ 0#4 ++ 0xF#4 := by decide
  rw [this, and_nibbles]
  simp [and_allOnes4]

/-- A row with the family and the low byte fixed. -/
theorem low_byte_row (f x y n : BitVec 4) : (f ++ x ++ y ++ n : Word) &&& 0xF0FF = f ++ 0#4 ++ y ++ n := by
  have : (0xF0FF : Word) = 0xF#4 ++ 0#4 ++ 0xF#4 ++ 0xF#4 := by decide
  rw [this, and_nibbles]
  simp [and_allOnes4]

/-- A row of family and address. -/
theorem addr_row (f : BitVec 4) (nnn : Addr12) : (f ++ nnn : Word) &&& 0xF000 = f ++ 0#4 ++ 0#4 ++ 0#4 := by
  obtain ⟨x, y, n, rfl⟩ := addr_nibbles nnn
  rw [append_addr, family_row]

/-- A row of family, register and byte. -/
theorem byte_row (f x : BitVec 4) (kk : Byte) : (f ++ x ++ kk : Word) &&& 0xF000 = f ++ 0#4 ++ 0#4 ++ 0#4 := by
  obtain ⟨y, n, rfl⟩ := byte_nibbles kk
  rw [append_byte, family_row]

/-- A row of family, register and fixed low byte. -/
theorem select_row (f x : BitVec 4) (kk : Byte) : (f ++ x ++ kk : Word) &&& 0xF0FF = f ++ 0#4 ++ kk := by
  obtain ⟨y, n, rfl⟩ := byte_nibbles kk
  rw [append_byte, low_byte_row, append_byte]

theorem cls : Statement .cls := rfl
theorem ret : Statement .ret := rfl
theorem sys (nnn : Addr12) : Statement (.sys nnn) := addr_row _ nnn
theorem jp (nnn : Addr12) : Statement (.jp nnn) := addr_row _ nnn
theorem call (nnn : Addr12) : Statement (.call nnn) := addr_row _ nnn
theorem seImm (x : Reg) (kk : Byte) : Statement (.seImm x kk) := byte_row _ x kk
theorem sneImm (x : Reg) (kk : Byte) : Statement (.sneImm x kk) := byte_row _ x kk
theorem seReg (x y : Reg) : Statement (.seReg x y) := low_nibble_row _ x y _
theorem sneReg (x y : Reg) : Statement (.sneReg x y) := low_nibble_row _ x y _
theorem ldImm (x : Reg) (kk : Byte) : Statement (.ldImm x kk) := byte_row _ x kk
theorem addImm (x : Reg) (kk : Byte) : Statement (.addImm x kk) := byte_row _ x kk
theorem ldReg (x y : Reg) : Statement (.ldReg x y) := low_nibble_row _ x y _
theorem orReg (x y : Reg) : Statement (.orReg x y) := low_nibble_row _ x y _
theorem andReg (x y : Reg) : Statement (.andReg x y) := low_nibble_row _ x y _
theorem xorReg (x y : Reg) : Statement (.xorReg x y) := low_nibble_row _ x y _
theorem addReg (x y : Reg) : Statement (.addReg x y) := low_nibble_row _ x y _
theorem subReg (x y : Reg) : Statement (.subReg x y) := low_nibble_row _ x y _
theorem shr (x y : Reg) : Statement (.shr x y) := low_nibble_row _ x y _
theorem subnReg (x y : Reg) : Statement (.subnReg x y) := low_nibble_row _ x y _
theorem shl (x y : Reg) : Statement (.shl x y) := low_nibble_row _ x y _
theorem ldI (nnn : Addr12) : Statement (.ldI nnn) := addr_row _ nnn
theorem jpV0 (nnn : Addr12) : Statement (.jpV0 nnn) := addr_row _ nnn
theorem rnd (x : Reg) (kk : Byte) : Statement (.rnd x kk) := byte_row _ x kk
theorem drw (x y : Reg) (n : Nibble) : Statement (.drw x y n) := family_row _ x y n
theorem skp (x : Reg) : Statement (.skp x) := select_row _ x _
theorem sknp (x : Reg) : Statement (.sknp x) := select_row _ x _
theorem ldVxDT (x : Reg) : Statement (.ldVxDT x) := select_row _ x _
theorem ldDTVx (x : Reg) : Statement (.ldDTVx x) := select_row _ x _
theorem ldSTVx (x : Reg) : Statement (.ldSTVx x) := select_row _ x _
theorem ldVxK (x : Reg) : Statement (.ldVxK x) := select_row _ x _
theorem addI (x : Reg) : Statement (.addI x) := select_row _ x _
theorem ldF (x : Reg) : Statement (.ldF x) := select_row _ x _
theorem ldB (x : Reg) : Statement (.ldB x) := select_row _ x _
theorem ldMemVx (x : Reg) : Statement (.ldMemVx x) := select_row _ x _
theorem ldVxMem (x : Reg) : Statement (.ldVxMem x) := select_row _ x _

end Sys2Proof.Laws.TableRow
end

