-- ==== Sys2Proof/Laws/Step.lean ====
section
/-! SUPPORT. What a step and a cycle can do, said once (40_cycle.md). -/

namespace Sys2Proof.Machine

/-- With nothing in the host's script a running machine's step is one cycle. -/
theorem step_eq_cycle {s : State} (hr : s.run = .running) (hs : s.hostScript = []) : step s = s.cycle := by
  simp [step, State.nextEvent, hs, State.deliver, State.tick, hr]

/-- A cycle that fetches and decodes i is exec of i and the end of the cycle. -/
theorem State.cycle_of_exec {s t : State} {op : Word} {i : Instr} (hf : s.fetch = some op)
    (hd : decodeWord op = .ok i) (he : exec i s = .next t) : s.cycle = .next t.closeCycle := by
  simp [State.cycle, hf, hd, he]

/-- Every answer of a cycle: a fetch fault, a decode fault, or exec of the decoded instruction. -/
theorem State.cycle_cases {s t : State} (h : s.cycle = .next t) :
    t = s.raise .addressOutOfRange none ∨ (∃ op, t = s.raise .decodeError (some op)) ∨
    ∃ op i u, s.fetch = some op ∧ decodeWord op = .ok i ∧ exec i s = .next u ∧ t = u.closeCycle := by
  unfold State.cycle at h
  split at h
  · cases h; exact .inl rfl
  · split at h
    · cases h; exact .inr (.inl ⟨_, rfl⟩)
    · split at h
      · cases h; exact .inr (.inr ⟨_, _, _, by assumption, by assumption, by assumption, rfl⟩)
      · cases h
      · cases h

/-- The end of a cycle never makes a state Faulted, and leaves a Faulted one as it is (R77). -/
theorem State.closeCycle_of_faulted {t : State} (h : t.closeCycle.run = .faulted) :
    t.run = .faulted ∧ t.closeCycle = t := by
  unfold State.closeCycle at h ⊢
  split at h
  · rename_i e; simp [State.finishCycle, e] at h
  · simp [h]

/-- The end of a cycle writes the timers and the snapshot alone (R75, R76). -/
theorem State.frame_closeCycle (t : State) : Frame [.dt, .st, .snapshot] t t.closeCycle := by
  unfold State.closeCycle
  split
  · simp [Frame, State.finishCycle]
  · simp [Frame]

/-! ### Construction -/

/-- Construction writes the background and then the font over the unlisted memory (70_reset_and_hazards.md R151). -/
theorem State.mem_construct (p : Config.Params) : (State.construct p).mem =
    Memory.writeBytes (Memory.writeBytes [] 0 (p.background.take 4096)) 0 (p.font.take 80) := rfl

/-- With the default parameters no cell differs from its unlisted value, so nothing is listed. -/
theorem State.mem_construct_default : (State.construct defaultParams).mem = [] := by
  have hbg : defaultParams.background.length = 4096 := List.length_replicate
  have hb : (defaultParams.background.take 4096).length = 4096 := by rw [List.length_take, hbg, Nat.min_self]
  have hf : (defaultParams.font.take 80).length = 80 := rfl
  rw [State.mem_construct]
  apply Memory.ext_of_wf _ Memory.wf_nil
  · intro a
    rw [Memory.read_writeBytes, Memory.read_writeBytes]
    show _ = Memory.unlisted a
    by_cases h : a < 80
    · rw [dif_pos (by omega), Memory.unlisted, if_pos h, List.getElem_take]
      show Memory.defaultFont[a - 0]'_ = _
      simp only [Nat.sub_zero]
      rw [List.getD_eq_getElem _ _ (show a < Memory.defaultFont.length from h)]
    · rw [dif_neg (by omega)]
      split
      · rw [Memory.unlisted, if_neg h, List.getElem_take]
        exact List.getElem_replicate ..
      · rfl
  · exact Memory.wf_writeBytes (Memory.wf_writeBytes Memory.wf_nil _ _ (by omega)) _ _ (by omega)

end Sys2Proof.Machine
end

