-- ==== Sys2Proof/Tests/Slice0.lean ====
section
/-! SUPPORT. The model's own tests, their expected results taken from spec/95_test_vectors.md (the vector is named in each
docstring), and for every obligation with hypotheses a state and operands that meet them together. -/

namespace Sys2Proof.Tests

open Sys2Proof Sys2Proof.Machine

/-! ## Well-formedness -/

/-- `0x00E0` is CLS, so there is no SYS 0x0E0 (30_encoding.md R59). -/
theorem test_wf_refuses_sys_0E0 : ¬WellFormed (.sys 0x0E0) := by decide

/-- `0x00EE` is RET, so there is no SYS 0x0EE (R59). -/
theorem test_wf_refuses_sys_0EE : ¬WellFormed (.sys 0x0EE) := by decide

theorem test_wf_admits_the_neighbours :
    WellFormed (.sys 0x0DF) ∧ WellFormed (.sys 0x0E1) ∧ WellFormed (.sys 0x0ED) ∧ WellFormed (.sys 0x0EF) ∧
    WellFormed (.sys 0x1E0) ∧ WellFormed (.jp 0x0E0) := by decide

/-! ## Decoding: a word of every constructor, its bits written out from the row of 30_encoding.md R60 -/

/-- Family 0 (V-E1, V-E2, V-E3). -/
theorem test_decode_family0 :
    decodeWord 0b0000000011100000#16 = .ok .cls ∧ decodeWord 0b0000000011101110#16 = .ok .ret ∧
    decodeWord 0b0000000111100000#16 = .ok (.sys 0x1E0) ∧ decodeWord 0x0000#16 = .ok (.sys 0x000) ∧
    decodeWord 0x00E1#16 = .ok (.sys 0x0E1) ∧ decodeWord 0x0FFF#16 = .ok (.sys 0xFFF) := by decide

/-- Control transfer: families 1, 2, B, 3, 4, 5, 9 (V-F1, V-F5, V-F9, V-F14, V-F16, V-E4). -/
theorem test_decode_control :
    decodeWord 0b0001101010111100#16 = .ok (.jp 0xABC) ∧ decodeWord 0b0010101010111100#16 = .ok (.call 0xABC) ∧
    decodeWord 0b1011001000000100#16 = .ok (.jpV0 0x204) ∧ decodeWord 0b0011001101000010#16 = .ok (.seImm 3 0x42) ∧
    decodeWord 0b0100001101000010#16 = .ok (.sneImm 3 0x42) ∧ decodeWord 0b0101000100100000#16 = .ok (.seReg 1 2) ∧
    decodeWord 0b1001000100100000#16 = .ok (.sneReg 1 2) := by decide

/-- Load and arithmetic: families 6, 7, C (V-C1, V-A3, V-A44). -/
theorem test_decode_load :
    decodeWord 0b0110101001010101#16 = .ok (.ldImm 10 0x55) ∧ decodeWord 0b0111001100000101#16 = .ok (.addImm 3 0x05) ∧
    decodeWord 0b1100001100001111#16 = .ok (.rnd 3 0x0F) := by decide

/-- Family 8 (V-E6). -/
theorem test_decode_family8 :
    decodeWord 0b1000101010110000#16 = .ok (.ldReg 10 11) ∧ decodeWord 0b1000101010110001#16 = .ok (.orReg 10 11) ∧
    decodeWord 0b1000101010110010#16 = .ok (.andReg 10 11) ∧ decodeWord 0b1000101010110011#16 = .ok (.xorReg 10 11) ∧
    decodeWord 0b1000101010110100#16 = .ok (.addReg 10 11) ∧ decodeWord 0b1000101010110101#16 = .ok (.subReg 10 11) ∧
    decodeWord 0b1000101010110110#16 = .ok (.shr 10 11) ∧ decodeWord 0b1000101010110111#16 = .ok (.subnReg 10 11) ∧
    decodeWord 0b1000101010111110#16 = .ok (.shl 10 11) := by decide

/-- Families A and D (V-M1, V-D7). -/
theorem test_decode_index_display :
    decodeWord 0b1010001011110000#16 = .ok (.ldI 0x2F0) ∧ decodeWord 0b1101000000010010#16 = .ok (.drw 0 1 2) := by decide

/-- Family E (V-E8). -/
theorem test_decode_familyE :
    decodeWord 0b1110001110011110#16 = .ok (.skp 3) ∧ decodeWord 0b1110001110100001#16 = .ok (.sknp 3) := by decide

/-- Family F (V-E10). -/
theorem test_decode_familyF :
    decodeWord 0b1111001100000111#16 = .ok (.ldVxDT 3) ∧ decodeWord 0b1111001100001010#16 = .ok (.ldVxK 3) ∧
    decodeWord 0b1111001100010101#16 = .ok (.ldDTVx 3) ∧ decodeWord 0b1111001100011000#16 = .ok (.ldSTVx 3) ∧
    decodeWord 0b1111001100011110#16 = .ok (.addI 3) ∧ decodeWord 0b1111001100101001#16 = .ok (.ldF 3) ∧
    decodeWord 0b1111001100110011#16 = .ok (.ldB 3) ∧ decodeWord 0b1111001101010101#16 = .ok (.ldMemVx 3) ∧
    decodeWord 0b1111001101100101#16 = .ok (.ldVxMem 3) := by decide

/-- The illegal words of V-E5, V-E7, V-E9 and V-E11. -/
theorem test_decode_rejects :
    decodeWord 0x5121 = .reject .family5LowNibble ∧ decodeWord 0x912F = .reject .family9LowNibble ∧
    decodeWord 0x8AB8 = .reject .family8LowNibble ∧ decodeWord 0x8ABD = .reject .family8LowNibble ∧
    decodeWord 0x8ABF = .reject .family8LowNibble ∧ decodeWord 0xE39F = .reject .familyELowByte ∧
    decodeWord 0xE3A0 = .reject .familyELowByte ∧ decodeWord 0xF300 = .reject .familyFLowByte ∧
    decodeWord 0xF375 = .reject .familyFLowByte ∧ decodeWord 0xF090 = .reject .familyFLowByte := by decide

/-- Bytes: the high byte comes first (20_memory.md R43), the rest of the stream is kept, and one byte is no instruction. -/
theorem test_decode_bytes :
    decodeBytes [0x6A, 0x55, 0x12] = .ok (.ldImm 10 0x55) [0x12] ∧ decodeBytes [0x6A] = .reject .truncated ∧
    decodeTableWord 16 0x6A55 = some (.ldImm 10 0x55) := by decide

/-- The word written back (V-E12: the y of a shift is kept). -/
theorem test_encode :
    encode (.shr 2 3) = 0x8236 ∧ encode (.shr 2 15) = 0x82F6 ∧ encode (.drw 0 1 5) = 0xD015 ∧
    encode (.sys 0xABC) = 0x0ABC := by decide

/-! ## One step -/

/-- The next state of an answer. -/
def next? : Result → Option State
  | .next t => some t
  | _ => none

/-- One step of the machine on a word placed at PC. -/
def stepOn (s : State) (w : Nat) : Option State := next? (step (s.withFetchWord 16 w))

/-- State.reset with three registers set: V[0], V[1] and VF. -/
def regs (v0 v1 vf : Byte) : State := ((State.reset.setV 0 v0).setV 1 v1).setV VF vf

/-- The two ALU results most tests look at. -/
def v0AndFlag (t : State) : Byte × Byte := (t.getV 0, t.getV VF)

/-- PC, SP and the bottom of the stack. -/
def flow (t : State) : Word × Fin 17 × Word := (t.pc, t.sp, t.stack[0])

/-- The pixels set in one row, as a number. -/
def row (t : State) (py : Fin 32) : BitVec 64 := t.fb[py]

/-- RUN and FAULT. -/
def outcome (t : State) : RunState × Option FaultRecord := (t.run, t.fault)

/-- A recorded fault. -/
def faulted (cause : Fault) (op addr : Word) : RunState × Option FaultRecord := (.faulted, some ⟨cause, some op, some addr⟩)

/-- V-F8. -/
theorem test_ret_underflow :
    (stepOn State.reset 0x00EE).map (fun t => (outcome t, t.pc)) = some (faulted .stackUnderflow 0x00EE 0x200, 0x200) := by
  decide

/-- V-F7. -/
theorem test_ret :
    (stepOn { State.reset with sp := 1, stack := Vector.replicate 16 0x456 } 0x00EE).map (fun t => (t.pc, t.sp)) =
      some (0x456, 0) := by decide

/-- V-F4: nothing is pushed. -/
theorem test_sys : (stepOn State.reset 0x0ABC).map flow = some (0xABC, 0, 0) := by decide

/-- V-F1. -/
theorem test_jp : (stepOn State.reset 0x1ABC).map flow = some (0xABC, 0, 0) := by decide

/-- V-F5. -/
theorem test_call : (stepOn State.reset 0x2ABC).map flow = some (0xABC, 1, 0x202) := by decide

/-- V-F6. -/
theorem test_call_overflow :
    (stepOn { State.reset with sp := 16 } 0x2ABC).map (fun t => (outcome t, t.sp, t.pc)) =
      some (faulted .stackOverflow 0x2ABC 0x200, 16, 0x200) := by decide

/-- V-F10: the sum is not masked. -/
theorem test_jpV0 : (stepOn (regs 0xFF 0 0) 0xBFFF).map flow = some (0x10FE, 1, 0x202) := by decide

/-- V-F13. -/
theorem test_jpV0_overflow :
    (stepOn { State.reset with sp := 16 } 0xB300).map outcome = some (faulted .stackOverflow 0xB300 0x200) := by
  decide

/-- V-F14, V-F15. -/
theorem test_seImm :
    (stepOn (State.reset.setV 3 0x42) 0x3342).map (·.pc) = some 0x204 ∧
    (stepOn (State.reset.setV 3 0x42) 0x3343).map (·.pc) = some 0x202 := by decide

/-- V-F16, V-F17. -/
theorem test_sneImm :
    (stepOn (State.reset.setV 3 0x42) 0x4342).map (·.pc) = some 0x202 ∧
    (stepOn (State.reset.setV 3 0x42) 0x4343).map (·.pc) = some 0x204 := by decide

/-- V-F18, V-F19. -/
theorem test_seReg :
    (stepOn ((State.reset.setV 1 7).setV 2 7) 0x5120).map (·.pc) = some 0x204 ∧
    (stepOn ((State.reset.setV 1 7).setV 2 8) 0x5120).map (·.pc) = some 0x202 := by decide

/-- V-F21, V-F22. -/
theorem test_sneReg :
    (stepOn ((State.reset.setV 1 7).setV 2 8) 0x9120).map (·.pc) = some 0x204 ∧
    (stepOn ((State.reset.setV 1 7).setV 2 7) 0x9120).map (·.pc) = some 0x202 := by decide

/-- V-C1, V-C2: an odd PC is fetched from. -/
theorem test_ldImm :
    (stepOn State.reset 0x6A55).map (fun t => (t.getV 10, t.pc)) = some (0x55, 0x202) ∧
    (stepOn (State.reset.setPc 0x201) 0x6A55).map (fun t => (t.getV 10, t.pc)) = some (0x55, 0x203) := by decide

/-- V-A3, V-A5. -/
theorem test_addImm :
    (stepOn (State.reset.setV 3 0xFE) 0x7305).map (fun t => (t.getV 3, t.getV VF)) = some (0x03, 0) ∧
    (stepOn (regs 0 0 0x01) 0x7FFF).map (·.getV VF) = some 0x00 := by decide

/-- V-A6. -/
theorem test_ldReg : (stepOn (regs 0 0x2A 0) 0x8010).map v0AndFlag = some (0x2A, 0) := by decide

/-- V-A7. -/
theorem test_orReg : (stepOn (regs 0xF0 0x0F 1) 0x8011).map v0AndFlag = some (0xFF, 1) := by decide

/-- V-A8. -/
theorem test_andReg : (stepOn (regs 0xF3 0x3F 0) 0x8012).map v0AndFlag = some (0x33, 0) := by decide

/-- V-A9. -/
theorem test_xorReg : (stepOn (regs 0xFF 0x0F 0) 0x8013).map v0AndFlag = some (0xF0, 0) := by decide

/-- V-A12, V-A13. -/
theorem test_addReg :
    (stepOn (regs 0xFF 0x02 0) 0x8014).map v0AndFlag = some (0x01, 1) ∧
    (stepOn (regs 0xFF 0x00 0) 0x8014).map v0AndFlag = some (0xFF, 0) := by decide

/-- V-A18, V-A19: VF as an operand. -/
theorem test_addReg_flag_operand :
    (stepOn (regs 0xFF 0 0x01) 0x80F4).map v0AndFlag = some (0x00, 1) ∧
    (stepOn (regs 0 0x80 0x90) 0x8F14).map (·.getV VF) = some 0x01 := by decide

/-- V-A24, V-A25. -/
theorem test_subReg :
    (stepOn (regs 3 5 0) 0x8015).map v0AndFlag = some (0xFE, 0) ∧
    (stepOn (regs 7 7 0) 0x8015).map v0AndFlag = some (0x00, 1) := by decide

/-- V-A30, V-A31. -/
theorem test_subnReg :
    (stepOn (regs 3 5 0) 0x8017).map v0AndFlag = some (0x02, 1) ∧
    (stepOn (regs 5 3 0) 0x8017).map v0AndFlag = some (0xFE, 0) := by decide

/-- V-A35 (the y register plays no part), V-A38 (x = F). -/
theorem test_shr :
    (stepOn (State.reset.setV 2 0xFF) 0x8236).map (fun t => (t.getV 2, t.getV 3, t.getV VF)) = some (0x7F, 0x00, 1) ∧
    (stepOn (regs 0 0 0xFF) 0x8F06).map (·.getV VF) = some 0x00 := by decide

/-- V-A39, V-A42 (x = F). -/
theorem test_shl :
    (stepOn (State.reset.setV 2 0x81) 0x820E).map (fun t => (t.getV 2, t.getV VF)) = some (0x02, 1) ∧
    (stepOn (regs 0 0 0xFF) 0x8F0E).map (·.getV VF) = some 0x02 := by decide

/-- V-A45, whatever byte is drawn. -/
theorem test_rnd_masked_to_zero : (stepOn State.reset 0xC300).map (·.getV 3) = some 0x00 := by
  show some (Config.randomByte 0 &&& 0#8) = some 0#8
  rw [BitVec.and_zero]

/-- V-M2. -/
theorem test_ldI : (stepOn State.reset 0xAFFF).map (·.i) = some 0xFFF := by decide

/-- V-M5, V-M8 (x = F). -/
theorem test_addI :
    (stepOn ((State.reset.setV 0 0xFE).setI 0xF02) 0xF01E).map (fun t => (t.i, t.getV VF)) = some (0x000, 1) ∧
    (stepOn ((regs 0 0 0x01).setI 0xFFF) 0xFF1E).map (fun t => (t.i, t.getV VF)) = some (0x000, 1) := by decide

/-- V-M11, V-M13. -/
theorem test_ldF :
    (stepOn (State.reset.setV 0 0x0F) 0xF029).map (·.i) = some 0x04B ∧
    (stepOn (State.reset.setV 0 0xFF) 0xF029).map (·.i) = some 0x4FB := by decide

/-- V-M16: up to the last byte of memory. -/
theorem test_ldB :
    (stepOn ((State.reset.setV 0 255).setI 0xFFD) 0xF033).map (fun t => (t.mem.readBytes 0xFFD 3, t.i)) =
      some ([2, 5, 5], 0xFFD) := by decide

/-- V-M17: nothing is written. -/
theorem test_ldB_above :
    (stepOn ((State.reset.setV 0 255).setI 0xFFE) 0xF033).map (fun t => (outcome t, t.mem.readBytes 0xFFE 2)) =
      some (faulted .addressOutOfRange 0xF033 0x200, [0, 0]) := by decide

/-- V-M18. -/
theorem test_ldMemVx :
    (stepOn ((((State.reset.setV 0 0x11).setV 1 0x22).setV 2 0x33).setI 0x400) 0xF255).map
      (fun t => (t.mem.readBytes 0x400 4, t.i)) = some ([0x11, 0x22, 0x33, 0], 0x400) := by decide

/-- V-M21. -/
theorem test_ldMemVx_above :
    (stepOn ((regs 1 0 0xEE).setI 0xFF1) 0xFF55).map (fun t => (outcome t, t.mem.read 0xFF1)) =
      some (faulted .addressOutOfRange 0xFF55 0x200, 0) := by decide

/-- V-M24, and V-M27: a program can read its own code. -/
theorem test_ldVxMem :
    (stepOn State.reset 0xF265).map (fun t => (t.getV 0, t.getV 1, t.getV 2)) = some (0xF0, 0x90, 0x90) ∧
    (stepOn (State.reset.setI 0x200) 0xF165).map (fun t => (t.getV 0, t.getV 1)) = some (0xF1, 0x65) := by decide

/-- V-M26. -/
theorem test_ldVxMem_above :
    (stepOn ((regs 7 8 0).setI 0xFFF) 0xF165).map (fun t => (outcome t, t.getV 0, t.getV 1)) =
      some (faulted .addressOutOfRange 0xF165 0x200, 7, 8) := by decide

/-- V-D11. -/
theorem test_cls :
    (stepOn { regs 0 0 1 with fb := Vector.replicate 32 (BitVec.allOnes 64) } 0x00E0).map
      (fun t => (row t 0, row t 31, t.getV VF)) = some (0, 0, 1) := by decide

/-- V-D1: glyph 0 (columns 0 to 3 are bits 0 to 3 of a row). -/
theorem test_drw :
    (stepOn State.reset 0xD015).map (fun t => ([row t 0, row t 1, row t 2, row t 3, row t 4, row t 5], t.getV VF)) =
      some ([0b1111, 0b1001, 0b1001, 0b1001, 0b1111, 0], 0) := by decide

/-- V-D7: each pixel wraps on its own. -/
theorem test_drw_wraps :
    (stepOn ((regs 60 31 0).setI 0x005) 0xD012).map
      (fun t => (row t 31 == BitVec.twoPow 64 62, row t 0 == BitVec.twoPow 64 61 ||| BitVec.twoPow 64 62, t.getV VF)) =
      some (true, true, 0) := by decide

/-- V-K1, V-K2. -/
theorem test_skp :
    (stepOn ((State.reset.setV 3 0x0A).setKey 10 true) 0xE39E).map (·.pc) = some 0x204 ∧
    (stepOn (State.reset.setV 3 0x0A) 0xE39E).map (·.pc) = some 0x202 := by decide

/-- V-K5. -/
theorem test_skp_no_key :
    (stepOn (State.reset.setV 0 0x10) 0xE09E).map outcome = some (faulted .keyIndexOutOfRange 0xE09E 0x200) := by
  decide

/-- V-K3, V-K4. -/
theorem test_sknp :
    (stepOn (State.reset.setV 3 0x0A) 0xE3A1).map (·.pc) = some 0x204 ∧
    (stepOn ((State.reset.setV 3 0x0A).setKey 10 true) 0xE3A1).map (·.pc) = some 0x202 := by decide

/-- V-K6. -/
theorem test_sknp_no_key :
    (stepOn (State.reset.setV 0 0xFF) 0xE0A1).map outcome = some (faulted .keyIndexOutOfRange 0xE0A1 0x200) := by
  decide

/-- V-K13: the register gets the value before the timer step of the same cycle. -/
theorem test_ldVxDT : (stepOn (State.reset.setDT 9) 0xF307).map (fun t => (t.getV 3, t.dt)) = some (9, 8) := by
  decide

/-- V-K15, V-K17. -/
theorem test_ldDTVx :
    (stepOn (State.reset.setV 3 5) 0xF315).map (·.dt) = some 4 ∧ (stepOn State.reset 0xF015).map (·.dt) = some 0 := by
  decide

/-- V-C6. -/
theorem test_ldSTVx :
    (stepOn (((State.reset.setV 1 2).setDT 1).setST 1) 0xF118).map (fun t => (t.dt, t.st)) = some (0, 1) := by
  decide

/-- V-K8, the issue: no timer step and no snapshot. -/
theorem test_ldVxK_issue :
    (stepOn (State.reset.setDT 3) 0xF20A).map (fun t => (t.run, t.pc, t.dt, t.snapshots)) =
      some (.waitKey 2, 0x202, 3, 0) := by decide

/-- V-K8, the completion. -/
theorem test_ldVxK_press :
    (next? (step { State.reset.setDT 3 with run := .waitKey 2, hostScript := [.press 7] })).map
      (fun t => (t.run, t.getV 2, t.keyLatch 7, t.dt, t.snapshots)) = some (.running, 7, some true, 2, 1) := by
  decide

/-! ## Cycles and host events -/

/-- V-C8, the first cycle of the empty program: SYS 0. -/
theorem test_empty_program : (next? (step State.reset)).map (fun t => (t.pc, t.run)) = some (0x000, .running) := by
  decide

/-- V-C8, the second cycle: the default FONT's first word is illegal. -/
theorem test_decode_fault :
    (next? (step (State.reset.setPc 0x000))).map (fun t => (outcome t, t.pc)) =
      some (faulted .decodeError 0xF090 0x000, 0x000) := by decide

/-- V-C4: no opcode is recorded, and there is no snapshot. -/
theorem test_fetch_fault :
    (next? (step (State.reset.setPc 0xFFF))).map (fun t => (outcome t, t.snapshots)) =
      some ((.faulted, some ⟨.addressOutOfRange, none, some 0xFFF⟩), 0) := by decide

/-- V-C3: the last word of memory. -/
theorem test_last_word :
    (stepOn (State.reset.setPc 0xFFE) 0x6A55).map (fun t => (t.getV 10, t.pc, t.run)) = some (0x55, 0x1000, .running) := by
  decide

/-- V-K10, and V-K12. -/
theorem test_wait_ignores_16_and_stops :
    next? (step { State.reset with run := .waitKey 0, hostScript := [.press 16] }) =
      some { State.reset with run := .waitKey 0 } ∧
    next? (step { State.reset with run := .waitKey 2, hostScript := [.stop] }) =
      some { State.reset with run := .stopped } := by decide

/-- V-X9: start after a fault. -/
theorem test_start_after_fault :
    (next? (step { (regs 1 2 3).raise .decodeError none with sp := 3, hostScript := [.start [0x12, 0x00]] })).map
      (fun t => (t.getV 0, t.sp, outcome t, t.mem.readBytes 0x200 2)) =
      some (0, 0, (.running, none), [0x12, 0x00]) := by decide

/-- V-X6: one byte too many. -/
theorem test_start_too_long (program : List Byte) (h : program.length = 3585) :
    (next? (State.deliver { regs 1 2 3 with run := .idle } (.start program))).map
      (fun t => (outcome t, t.mem, t.getV 0)) = some ((.faulted, some ⟨.addressOutOfRange, none, none⟩), [], 0) := by
  have hl : Config.progMax < program.length := by rw [h]; decide
  show some (_, _, _) = _
  unfold State.startProgram
  rw [if_pos hl]
  decide

/-! ## Witnesses: a state and operands that meet the hypotheses of each obligation that has some -/

theorem witness_EncodedInstructionsDecodeBack : WellFormed (.sys 0x0E1) ∧ WellFormed .cls := by decide

theorem witness_DecodedWordsEncodeBack : decodeWord 0x82F6 = .ok (.shr 2 15) := by decide

theorem witness_IllegalWordsAreTheListedOnes :
    (0x512F#16).toNat / 4096 = 0x5 ∧ (0x9121#16).toNat % 16 ≠ 0 ∧ (0x8ABF#16).toNat % 16 ∈ [0x8, 0x9, 0xA, 0xB, 0xC, 0xD, 0xF] ∧
    (0xE39F#16).toNat % 256 ∉ [0x9E, 0xA1] ∧
    (0xF375#16).toNat % 256 ∉ [0x07, 0x0A, 0x15, 0x18, 0x1E, 0x29, 0x33, 0x55, 0x65] := by decide

theorem witness_FamiliesEightAndFSelectors :
    (0x8#4).toNat ∈ [0x8, 0x9, 0xA, 0xB, 0xC, 0xD, 0xF] ∧ (0xF#4).toNat ∈ [0x8, 0x9, 0xA, 0xB, 0xC, 0xD, 0xF] ∧
    (0x00#8).toNat ∉ [0x07, 0x0A, 0x15, 0x18, 0x1E, 0x29, 0x33, 0x55, 0x65] ∧
    (0x75#8).toNat ∉ [0x07, 0x0A, 0x15, 0x18, 0x1E, 0x29, 0x33, 0x55, 0x65] := by decide

/-- The last byte and the last word of memory, and the first address above each. -/
theorem witness_ByteAndWordAccesses :
    (0xFFF : Nat) ≤ 0xFFF ∧ (0xFFF : Nat) < 0x1000 ∧ (0xFFF : Nat) < 0xFFF + 1 ∧
    State.reset.memRead 0xFFE = some 0 ∧ State.reset.memRead (0xFFE + 1) = some 0 := by decide

/-- SP at each end of its range, and one away from it. -/
theorem witness_PushAndPop :
    State.sp { State.reset with sp := 16 } = 16 ∧ (State.sp { State.reset with sp := 15 }).val < 16 ∧
    State.reset.sp = 0 ∧ 0 < (State.sp { State.reset with sp := 1 }).val := by decide

theorem witness_HostScriptIsDeliveredInOrder :
    State.reset.hostScript = [] ∧ State.hostScript { State.reset with hostScript := [.stop, .tick] } = .stop :: [.tick] := by
  decide

/-- The launch state of a program whose first word is given. -/
def launch (w : Nat) : State := State.reset.withFetchWord 16 w

theorem witness_StepRunsTheDecodedInstruction :
    (launch 0x6A55).run = .running ∧ (launch 0x6A55).hostScript = [] ∧
    (launch 0x6A55).memRead (launch 0x6A55).pc.toNat = some 0x6A ∧
    (launch 0x6A55).memRead ((launch 0x6A55).pc.toNat + 1) = some 0x55 ∧
    decodeBytes [0x6A, 0x55] = .ok (.ldImm 10 0x55) [] ∧
    exec (.ldImm 10 0x55) (launch 0x6A55) = .next ((launch 0x6A55).advance.setV 10 0x55) :=
  ⟨rfl, rfl, by decide, by decide, by decide, rfl⟩

theorem witness_FetchAboveMemoryFaults :
    (State.reset.setPc 0xFFF).run = .running ∧ (State.reset.setPc 0xFFF).hostScript = [] ∧
    0xFFE < (State.reset.setPc 0xFFF).pc.toNat := by decide

theorem witness_IllegalWordFaults :
    (launch 0x5121).run = .running ∧ (launch 0x5121).hostScript = [] ∧
    (launch 0x5121).memReadWord (launch 0x5121).pc.toNat = some 0x5121 ∧
    decodeWord 0x5121 = .reject .family5LowNibble := by decide

/-- A completed cycle, and a suspended one. -/
theorem witness_CompletedCycleStepsTimersAndPublishes :
    ((launch 0x6A55).run = .running ∧ (launch 0x6A55).hostScript = [] ∧
      (launch 0x6A55).memReadWord (launch 0x6A55).pc.toNat = some 0x6A55 ∧ decodeWord 0x6A55 = .ok (.ldImm 10 0x55) ∧
      (next? (exec (.ldImm 10 0x55) (launch 0x6A55))).map (·.run) = some .running) ∧
    ((launch 0xF20A).run = .running ∧ (launch 0xF20A).hostScript = [] ∧
      (launch 0xF20A).memReadWord (launch 0xF20A).pc.toNat = some 0xF20A ∧ decodeWord 0xF20A = .ok (.ldVxK 2) ∧
      (next? (exec (.ldVxK 2) (launch 0xF20A))).map (·.run) = some (.waitKey 2)) := by decide

theorem witness_FaultsArePrecise :
    (launch 0x00EE).run = .running ∧ (launch 0x00EE).hostScript = [] ∧
    (next? (step (launch 0x00EE))).map (·.run) = some .faulted := by decide

/-- Each fault condition at the last value in range and the first one past it; a draw of no rows has none. -/
theorem witness_EveryInstructionAnswersANextState :
    faultOf .ret { State.reset with sp := 1 } = none ∧ faultOf .ret State.reset = some .stackUnderflow ∧
    faultOf (.call 0) { State.reset with sp := 15 } = none ∧
    faultOf (.call 0) { State.reset with sp := 16 } = some .stackOverflow ∧
    faultOf (.jpV0 0) { State.reset with sp := 15 } = none ∧
    faultOf (.jpV0 0) { State.reset with sp := 16 } = some .stackOverflow ∧
    faultOf (.drw 0 0 0) (State.reset.setI 0xFFF) = none ∧ faultOf (.drw 0 0 1) (State.reset.setI 0xFFF) = none ∧
    faultOf (.drw 0 0 2) (State.reset.setI 0xFFF) = some .addressOutOfRange ∧
    faultOf (.ldB 0) (State.reset.setI 0xFFD) = none ∧
    faultOf (.ldB 0) (State.reset.setI 0xFFE) = some .addressOutOfRange ∧
    faultOf (.ldVxMem 1) (State.reset.setI 0xFFE) = none ∧
    faultOf (.ldVxMem 1) (State.reset.setI 0xFFF) = some .addressOutOfRange ∧
    faultOf (.skp 0) (State.reset.setV 0 15) = none ∧
    faultOf (.sknp 0) (State.reset.setV 0 16) = some .keyIndexOutOfRange ∧
    faultOf .cls State.reset = none := by decide

/-- RUN after an instruction. -/
def runAfter (i : Instr) (s : State) : Option RunState := (next? (exec i s)).map (·.run)

/-- Each of the nine instructions that can raise a fault raises it at the first value past its range. -/
theorem witness_FaultCausesByInstruction :
    runAfter .ret State.reset = some .faulted ∧
    runAfter (.call 0) { State.reset with sp := 16 } = some .faulted ∧
    runAfter (.jpV0 0) { State.reset with sp := 16 } = some .faulted ∧
    runAfter (.drw 0 0 2) (State.reset.setI 0xFFF) = some .faulted ∧
    runAfter (.ldB 0) (State.reset.setI 0xFFE) = some .faulted ∧
    runAfter (.ldMemVx 1) (State.reset.setI 0xFFF) = some .faulted ∧
    runAfter (.ldVxMem 1) (State.reset.setI 0xFFF) = some .faulted ∧
    runAfter (.skp 0) (State.reset.setV 0 16) = some .faulted ∧
    runAfter (.sknp 0) (State.reset.setV 0 16) = some .faulted := by decide

theorem witness_NoCycleUnlessRunning :
    State.run { State.reset with run := .idle } ≠ .running ∧ State.run { State.reset with run := .waitKey 0 } ≠ .running ∧
    State.hostScript { State.reset with run := .idle } = [] := by decide

theorem witness_ReturnPopsOrUnderflows :
    0 < (State.sp { State.reset with sp := 1 }).val ∧ State.reset.sp = 0 := by decide

/-- The jump out of memory, and the jump to itself. -/
theorem witness_JumpLoadsTheAddress : (4095#12) = 0xFFF ∧ (0x200#12).toNat = State.reset.pc.toNat := by decide

theorem witness_SysIsAPlainJump : (0x0E1#12) ≠ 0x0E0 ∧ (0x0E1#12) ≠ 0x0EE := by decide

theorem witness_CallPushesAndJumps :
    (State.sp { State.reset with sp := 15 }).val < 16 ∧ State.sp { State.reset with sp := 16 } = 16 := by decide

theorem witness_JumpV0PushesAndAdds :
    (State.sp { State.reset with sp := 15 }).val < 16 ∧ State.sp { State.reset with sp := 16 } = 16 := by decide

/-- V[1] changes between the call and the return. -/
theorem witness_CallThenReturnComesBack :
    ∃ s m : State, s.sp.val < 16 ∧ ∀ t, exec (.call 0x300) s = .next t → m.stack = t.stack ∧ m.sp = t.sp := by
  refine ⟨State.reset, { State.reset.setV 1 9 with sp := 1, stack := State.reset.stack.set 0 0x202 }, by decide, ?_⟩
  intro t h
  cases h
  decide

theorem witness_AddSetsCarry : (0 : Reg) ≠ VF ∧ (1 : Reg) ≠ 0 ∧ (1 : Reg) ≠ VF := by decide

theorem witness_AddImmediateWraps : (15 : Reg) ≠ 0 := by decide

theorem witness_CopyAndLogicActBitwise : (15 : Reg) ≠ 0 := by decide

theorem witness_SubtractionsSetNotBorrow : (0 : Reg) ≠ VF ∧ (1 : Reg) ≠ 0 ∧ (1 : Reg) ≠ VF := by decide

theorem witness_ShiftsInPlace : (14 : Reg) ≠ VF ∧ (15 : Reg) = VF ∧ (1 : Reg) ≠ 14 ∧ (1 : Reg) ≠ VF := by decide

theorem witness_RandomByteIsMasked : (15 : Reg) ≠ 3 := by decide

theorem witness_AddToIndexWrapsAndFlags : (14 : Reg) ≠ VF := by decide

theorem witness_StoreDecimalDigits :
    (State.reset.setI 0xFFD).base + 2 ≤ 0xFFF ∧ 0xFFF < (State.reset.setI 0xFFE).base + 2 := by decide

theorem witness_StoreRegistersFromI :
    (State.reset.setI 0xFF0).base + (15 : Reg).toNat ≤ 0xFFF ∧ 0xFFF < (State.reset.setI 0xFF1).base + (15 : Reg).toNat ∧
    (15 : Reg).toNat ≤ (15 : Reg).toNat := by decide

theorem witness_LoadRegistersFromI :
    (State.reset.setI 0xFFF).base + (0 : Reg).toNat ≤ 0xFFF ∧ 0xFFF < (State.reset.setI 0xFFF).base + (1 : Reg).toNat ∧
    (0 : Reg).toNat ≤ (0 : Reg).toNat ∧ (0 : Reg).toNat < (1 : Reg).toNat := by decide

/-- The store of V[0] and V[1] at 0x400, after which both registers are overwritten. -/
theorem witness_StoreThenLoadRestores :
    ∃ s t m : State, s.base + (1 : Reg).toNat ≤ 0xFFF ∧ exec (.ldMemVx 1) s = .next t ∧ m.mem = t.mem ∧ m.i = s.i ∧
      m.getV 0 ≠ s.getV 0 := by
  refine ⟨(regs 7 8 0).setI 0x400, _, { (regs 0 0 0).setI 0x400 with mem := [(0x400, 7), (0x401, 8)] }, by decide, rfl, ?_⟩
  decide

theorem witness_StoredWordIsFetchedNext :
    ∃ s t : State, 1 ≤ (1 : Reg).toNat ∧ s.base + (1 : Reg).toNat ≤ 0xFFF ∧ exec (.ldMemVx 1) s = .next t ∧
      s.base = t.pc.toNat :=
  ⟨(regs 0x6A 0x55 0).setI 0x202, _, by decide, by decide, rfl, by decide⟩

/-- A sprite of no rows reaches nothing; one row at the last byte is in memory, two are not. -/
theorem witness_ClearScreenClearsEveryPixel :
    (∃ t, exec .cls (State.reset.setI 0xFFF) = .next t ∧ SpriteInMemory t 1) ∧
    SpriteInMemory (State.reset.setI 0xFFF) 0 := by
  refine ⟨⟨_, rfl, ?_⟩, ?_⟩ <;> unfold SpriteInMemory <;> decide

/-- In memory and out of it, a covered pixel and one that is not, with and without a collision. -/
theorem witness_DrawXorsTheSprite :
    SpriteInMemory (State.reset.setI 0xFFF) 1 ∧ ¬SpriteInMemory (State.reset.setI 0xFFF) 2 ∧
    SpriteCovers State.reset 0 1 1 3 0 ∧ ¬SpriteCovers State.reset 0 1 1 4 0 ∧
    (∃ px py, SpriteCovers { State.reset with fb := Vector.replicate 32 1 } 0 1 1 px py ∧
      FrameBuffer.pixel (Vector.replicate 32 1) px py = true) ∧
    (¬∃ px py, SpriteCovers State.reset 0 1 1 px py ∧ State.reset.fb.pixel px py = true) := by
  have covers : ∀ s : State, s.mem = [] → s.i = 0 → s.getV 0 = 0 → s.getV 1 = 0 → ∀ b, b < 4 → SpriteCovers s 0 1 1 b 0 := by
    intro s hm hi h0 h1 b hb
    refine ⟨0, b, by decide, by omega, ?_, by rw [h0]; show (0 + b) % 64 = b; omega, by rw [h1]; decide⟩
    rw [hm, State.base, hi]
    match b, hb with
    | 0, _ => decide
    | 1, _ => decide
    | 2, _ => decide
    | 3, _ => decide
  refine ⟨?_, ?_, covers _ rfl rfl rfl rfl 3 (by decide), ?_, ⟨0, 0, covers _ rfl rfl rfl rfl 0 (by decide), by decide⟩, ?_⟩
  · unfold SpriteInMemory; decide
  · unfold SpriteInMemory; decide
  · rintro ⟨row, b, hr, hb, hbit, hx, -⟩
    have hr : row = 0 := by change row < 1 at hr; omega
    have hx : b = 4 := by change (0 + b) % 64 = 4 at hx; omega
    subst hr hx
    revert hbit; decide
  · rintro ⟨px, py, -, h⟩
    simp [FrameBuffer.pixel, State.reset] at h

theorem witness_DrawTwiceRestores :
    (0 : Reg) ≠ VF ∧ (1 : Reg) ≠ VF ∧ SpriteInMemory State.reset 5 ∧ ∃ t, exec (.drw 0 1 5) State.reset = .next t := by
  refine ⟨by decide, by decide, ?_, _, rfl⟩
  unfold SpriteInMemory; decide

/-- A key held, a key up, key 15 and the first number past it. -/
theorem witness_SkipsTestTheKeyLatch :
    (State.reset.setKey 15 true).keyLatch ((State.setV (State.reset.setKey 15 true) 0 15).getV 0).toNat = some true ∧
    State.reset.keyLatch (State.reset.getV 0).toNat = some false ∧
    ((State.reset.setV 0 15).getV 0).toNat ≤ 15 ∧ 15 < ((State.reset.setV 0 16).getV 0).toNat := by decide

theorem witness_KeyPressCompletesTheWait :
    State.run { State.reset with run := .waitKey 15 } = .waitKey 15 ∧ (15 : Nat) ≤ 15 ∧ (0 : Reg) ≠ 15 := by decide

theorem witness_TimerCopies : (15 : Reg) ≠ 3 := by decide

/-- The longest program that fits, and one byte more. -/
theorem witness_StartResetsAndLoads :
    State.run { State.reset with run := .idle } = .idle ∧ State.run { State.reset with run := .stopped } = .stopped ∧
    (State.reset.raise .decodeError none).run = .faulted ∧ (List.replicate 3584 (0 : Byte)).length ≤ 3584 ∧
    3584 < (List.replicate 3585 (0 : Byte)).length := by
  simp only [List.length_replicate]
  decide

theorem witness_StartWhileActiveIsRefused :
    State.reset.run = .running ∧ ∃ x, State.run { State.reset with run := .waitKey 3 } = .waitKey x := ⟨rfl, 3, rfl⟩

/-- Addresses at the ends of the font, of the reserved area and of a program of 3583 bytes. -/
theorem witness_LaunchStateAfterConstruction :
    defaultParams.font.length = 80 ∧ defaultParams.background.length = 4096 ∧
    (List.replicate 3583 (0 : Byte)).length ≤ 3584 ∧ (79 < 80 ∧ 80 ≤ 80 ∧ 80 ≤ 0x1FF ∧ 0x1FF < 0x200) ∧
    3582 < (List.replicate 3583 (0 : Byte)).length ∧ 0x200 + (List.replicate 3583 (0 : Byte)).length ≤ 0xFFF := by
  refine ⟨rfl, List.length_replicate, ?_⟩
  simp only [List.length_replicate]
  decide

theorem witness_StopHaltsTheLoop :
    State.reset.run = .running ∧ (∃ x, State.run { State.reset with run := .waitKey 3 } = .waitKey x) ∧
    State.run { State.reset with run := .idle } = .idle := ⟨rfl, ⟨3, rfl⟩, rfl⟩

theorem witness_PressSetsTheLatch :
    (15 : Nat) ≤ 15 ∧ (∀ x, State.reset.run ≠ .waitKey x) ∧ (15 : Nat) < 16 := by decide

theorem witness_ReleaseClearsTheLatch : (15 : Nat) ≤ 15 ∧ (15 : Nat) < 16 := by decide

/-- A state with the invariant whose step answers a next state. -/
theorem witness_StepKeepsTheInvariant : State.reset.Inv ∧ ∃ t, step State.reset = .next t := by
  refine ⟨⟨?_, by decide, by decide, by decide, by decide, by decide⟩, _, rfl⟩
  constructor <;> decide

/-- A store that ends at the last byte of memory, and one byte past it. -/
theorem witness_InstructionsWriteOnlyTheirParts :
    (∃ t, exec (.ldMemVx 15) (State.reset.setI 0xFF0) = .next t) ∧
    faultOf (.ldMemVx 15) (State.reset.setI 0xFF0) = none ∧
    (∃ t, exec (.ldMemVx 15) (State.reset.setI 0xFF1) = .next t) ∧
    faultOf (.ldMemVx 15) (State.reset.setI 0xFF1) = some .addressOutOfRange :=
  ⟨⟨_, rfl⟩, by decide, ⟨_, rfl⟩, by decide⟩

/-- The wait, and a fault. -/
theorem witness_OnlyTheKeyWaitMovesTheRunState :
    (∃ t, exec (.ldVxK 3) State.reset = .next t ∧ t.run ≠ State.reset.run) ∧
    ∃ t, exec .ret State.reset = .next t ∧ t.run ≠ State.reset.run :=
  ⟨⟨_, rfl, by decide⟩, ⟨_, rfl, by decide⟩⟩

theorem witness_OnlyKeyEventsMoveTheLatch :
    ∃ s t : State, step s = .next t ∧ t.key ≠ s.key ∧ s.hostScript = [.press 15] :=
  ⟨{ State.reset with hostScript := [.press 15] }, _, rfl, by decide, rfl⟩

theorem witness_SoundTimerIsUnobservable : ∃ t, exec (.ldSTVx 3) (State.reset.setST 9) = .next t := ⟨_, rfl⟩

/-- One live entry, and fifteen stale slots that differ. -/
theorem witness_StaleStackSlotsAreUnobservable :
    ∃ s s' t : State, { s' with stack := s.stack } = s ∧ SameLiveStack s s' ∧ s.stack ≠ s'.stack ∧ exec .ret s = .next t := by
  refine ⟨{ State.reset with sp := 1 }, { State.reset with sp := 1, stack := (Vector.replicate 16 7).set 0 0 }, _, rfl,
    ⟨rfl, ?_⟩, by decide, rfl⟩
  decide

theorem witness_JumpToSelfIsQuiescent :
    (launch 0x1200).run = .running ∧ (launch 0x1200).hostScript = [] ∧ (0x200#12).toNat = (launch 0x1200).pc.toNat ∧
    (launch 0x1200).memReadWord (launch 0x1200).pc.toNat = some (encode (.jp 0x200)) := by decide

end Sys2Proof.Tests
end

section
/-! How a step consumes the host's script: the two cases of `State.nextEvent` (00_scope.md R8, 60_exceptions.md R150). -/

namespace Sys2Proof.Machine

/-- With an empty script the host's next action is a tick, and the state stays. -/
theorem State.nextEvent_of_nil {s : State} (hs : s.hostScript = []) : s.nextEvent = (.tick, s) := by
  simp [State.nextEvent, hs]

/-- The host's next action is the oldest event of its script, which loses it. -/
theorem State.nextEvent_of_cons {s : State} {e : HostEvent} {rest : List HostEvent} (hs : s.hostScript = e :: rest) :
    s.nextEvent = (e, { s with hostScript := rest }) := by
  simp [State.nextEvent, hs]

/-- Unlike `step_eq_cycle`, in every run state. -/
theorem step_eq_tick {s : State} (hs : s.hostScript = []) : step s = s.tick := by
  rw [step, State.nextEvent_of_nil hs, State.deliver]

theorem step_eq_deliver {s : State} {e : HostEvent} {rest : List HostEvent} (hs : s.hostScript = e :: rest) :
    step s = State.deliver { s with hostScript := rest } e := by
  rw [step, State.nextEvent_of_cons hs]

/-- Settles O8, by the two cases of the script. -/
theorem hostScriptIsDeliveredInOrder : Obligations.HostScriptIsDeliveredInOrder :=
  fun _ => ⟨step_eq_tick, fun _ _ => step_eq_deliver⟩

end Sys2Proof.Machine
end

section
/-! The invariant of the machine (10_state.md R30, R35), kept by every operation, every instruction, every cycle and
every host event. -/

namespace Sys2Proof.Machine

/-! ### The invariant and the operations -/

namespace State.Inv

variable {s : State} (h : s.Inv)
include h

theorem setV (r : Reg) (b : Byte) : (s.setV r b).Inv := { h with }

theorem setDT (b : Byte) : (s.setDT b).Inv := { h with }

theorem setST (b : Byte) : (s.setST b).Inv := { h with }

theorem withFb (fb : FrameBuffer) : State.Inv { s with fb := fb } := { h with }

theorem withDraws (n : Nat) : State.Inv { s with draws := n } := { h with }

theorem withScript (es : List HostEvent) : State.Inv { s with hostScript := es } := { h with }

theorem setKey (k : Nat) (b : Bool) : (s.setKey k b).Inv := by
  rw [State.setKey_eq]; exact { h with }

theorem setRegs (k : Nat) (bs : List Byte) : (s.setRegs k bs).Inv := by
  rw [State.setRegs_eq]; exact { h with }

theorem setI {w : Word} (hw : w.toNat ≤ 0xFFF) : (s.setI w).Inv := { h with index := hw }

theorem setPc {w : Word} (hw : w.toNat ≤ 0x10FE) : (s.setPc w).Inv := { h with counter := hw }

/-- RUN moves between states other than Faulted while no fault is recorded (R30). -/
theorem withRun {r : RunState} (hs : s.run ≠ .faulted) (hr : r ≠ .faulted) : State.Inv { s with run := r } :=
  { h with faultRecord := by simpa [hr, hs] using h.faultRecord }

theorem raise (c : Fault) (op : Option Word) : (s.raise c op).Inv := { h with faultRecord := by simp }

theorem finishCycle : s.finishCycle.Inv := { h with published := by simp [State.finishCycle] }

theorem closeCycle : s.closeCycle.Inv := by
  unfold State.closeCycle
  split
  · exact h.finishCycle
  · exact h

theorem storeBytes {t : State} {a : Nat} {bs : List Byte} (hb : bs ≠ []) (ht : s.storeBytes a bs = some t) : t.Inv := by
  obtain ⟨hr, rfl⟩ := State.storeBytes_eq_some.mp ht
  have hl : bs.length ≠ 0 := by simpa using hb
  rw [Memory.rangeOk_iff] at hr
  exact { h with memWf := Memory.wf_writeBytes h.memWf a bs (by omega) }

/-- A pushed return address is a PC a fetched instruction leaves, at most 0x1000 (R35). -/
theorem push {t : State} {w : Word} (hw : w.toNat ≤ 0x1000) (ht : s.push w = some t) : t.Inv := by
  obtain ⟨hsp, rfl⟩ := State.push_eq_some.mp ht
  refine { h with returns := fun k hk => ?_ }
  simp only [Fin.getElem_fin, Vector.getElem_set]
  split
  · exact hw
  · exact h.returns k (by simp at hk; omega)

theorem pop {t : State} {w : Word} (ht : s.pop = some (w, t)) : t.Inv := by
  obtain ⟨hsp, -, rfl⟩ := State.pop_eq_some.mp ht
  exact { h with returns := fun k hk => h.returns k (by simp at hk; omega) }

/-- The popped word was a live return address. -/
theorem popped_le {t : State} {w : Word} (ht : s.pop = some (w, t)) : w.toNat ≤ 0x1000 := by
  obtain ⟨hsp, rfl, -⟩ := State.pop_eq_some.mp ht
  exact h.returns ⟨s.sp.val - 1, by have := s.sp.isLt; omega⟩ (by simp; omega)

end State.Inv

/-! ### The bounds of what an instruction writes to PC and I -/

/-- Below the top of the 16-bit range the step of PC to the next instruction does not wrap. -/
theorem toNat_add_two {w : Word} (hw : w.toNat < 0xFFFE) : (w + 2).toNat = w.toNat + 2 := by
  rw [BitVec.toNat_add]
  exact Nat.mod_eq_of_lt (Nat.add_lt_add_right hw 2)

theorem addrWord_le (nnn : Addr12) : (addrWord nnn).toNat ≤ 0xFFF := by
  have := nnn.isLt
  rw [addrWord_toNat]; omega

theorem jumpV0Target_le (nnn : Addr12) (v : Byte) : (jumpV0Target nnn v).toNat ≤ 0x10FE := by
  have := nnn.isLt
  have := v.isLt
  rw [jumpV0Target_toNat]; omega

theorem glyphAddr_le (v : Byte) : (glyphAddr v).toNat ≤ 0xFFF := by
  have := v.isLt
  rw [glyphAddr, BitVec.toNat_ofNat, Nat.mod_eq_of_lt (by omega)]
  omega

theorem indexSum_le (i : Word) (v : Byte) : (indexSum i v).toNat ≤ 0xFFF := by
  simp [indexSum]; omega

/-! ### The invariant and the instructions -/

namespace State.Inv

variable {s t : State} (h : s.Inv)
include h

theorem advance (hp : s.pc.toNat ≤ 0xFFE) : s.advance.Inv :=
  h.setPc (by rw [toNat_add_two (by omega)]; omega)

theorem skipIf (hp : s.pc.toNat ≤ 0xFFE) (c : Bool) : (s.advance.skipIf c).Inv := by
  have hadv : s.advance.pc.toNat = s.pc.toNat + 2 := toNat_add_two (by omega)
  rw [State.skipIf_eq]
  refine (h.advance hp).setPc ?_
  split
  · rw [toNat_add_two (by omega)]; omega
  · omega

/-- An instruction with a fault condition keeps the invariant when its effect does: its fault entry always does. -/
theorem orRaise {i : Instr} {c : Fault} {o : Option State} (ht : s.orRaise i c o = .next t)
    (ho : ∀ u, o = some u → u.Inv) : t.Inv := by
  rcases State.orRaise_eq_next.mp ht with hsome | ⟨-, hraised⟩
  · exact ho t hsome
  · exact hraised ▸ h.raise c (some (encode i))

/-- CALL and JP V0: the pushed word is the advanced PC. -/
theorem pushAndJump (hp : s.pc.toNat ≤ 0xFFE) {i : Instr} {c : Fault} {target : Word} (hw : target.toNat ≤ 0x10FE)
    (ht : s.orRaise i c ((s.advance.push s.advance.pc).map fun u => u.setPc target) = .next t) : t.Inv := by
  refine h.orRaise ht fun u hu => ?_
  obtain ⟨u, hpush, rfl⟩ := Option.map_eq_some_iff.mp hu
  have hadv : s.advance.pc.toNat = s.pc.toNat + 2 := toNat_add_two (by omega)
  exact ((h.advance hp).push (by omega) hpush).setPc hw

/-- An instruction that a cycle fetches (at or below 0xFFE) in a running machine keeps the invariant. -/
theorem exec (hr : s.run = .running) (hp : s.pc.toNat ≤ 0xFFE) {i : Instr} (ht : exec i s = .next t) : t.Inv := by
  have hadv := h.advance hp
  cases i with
  | cls => cases ht; exact hadv.withFb _
  | sys nnn | jp nnn => cases ht; exact hadv.setPc (by have := addrWord_le nnn; omega)
  | seImm x kk | sneImm x kk | seReg x y | sneReg x y => cases ht; exact h.skipIf hp _
  | ldImm x kk | addImm x kk | ldReg x y | orReg x y | andReg x y | xorReg x y | ldVxDT x =>
    cases ht; exact hadv.setV _ _
  | addReg x y | subReg x y | shr x y | subnReg x y | shl x y => cases ht; exact (hadv.setV _ _).setV _ _
  | rnd x kk => cases ht; exact (hadv.withDraws _).setV _ _
  | ldI nnn => cases ht; exact hadv.setI (addrWord_le nnn)
  | addI x => cases ht; exact (hadv.setI (indexSum_le _ _)).setV _ _
  | ldF x => cases ht; exact hadv.setI (glyphAddr_le _)
  | ldDTVx x => cases ht; exact hadv.setDT _
  | ldSTVx x => cases ht; exact hadv.setST _
  | ldVxK x => cases ht; exact hadv.withRun (by simp [hr]) (by simp)
  | call nnn => exact h.pushAndJump hp (by have := addrWord_le nnn; omega) ht
  | jpV0 nnn => exact h.pushAndJump hp (jumpV0Target_le nnn _) ht
  | ret =>
    refine h.orRaise ht fun u hu => ?_
    obtain ⟨⟨w, u⟩, hpop, rfl⟩ := Option.map_eq_some_iff.mp hu
    exact (hadv.pop hpop).setPc ((hadv.popped_le hpop).trans (by decide))
  | skp x | sknp x =>
    refine h.orRaise ht fun u hu => ?_
    obtain ⟨down, -, rfl⟩ := Option.map_eq_some_iff.mp hu
    exact h.skipIf hp _
  | drw x y n =>
    refine h.orRaise ht fun u hu => ?_
    obtain ⟨rows, -, rfl⟩ := Option.map_eq_some_iff.mp hu
    exact (hadv.withFb _).setV _ _
  | ldVxMem x =>
    refine h.orRaise ht fun u hu => ?_
    obtain ⟨bs, -, rfl⟩ := Option.map_eq_some_iff.mp hu
    exact hadv.setRegs _ _
  | ldB x => exact h.orRaise ht fun u hu => hadv.storeBytes (by simp [bcdDigits]) hu
  | ldMemVx x => exact h.orRaise ht fun u hu => hadv.storeBytes (by simp [State.regsUpTo]) hu

/-! ### The invariant, the cycle and the host -/

theorem cycle (hr : s.run = .running) (ht : s.cycle = .next t) : t.Inv := by
  obtain rfl | ⟨op, rfl⟩ | ⟨op, i, u, hf, -, he, rfl⟩ := State.cycle_cases ht
  · exact h.raise _ _
  · exact h.raise _ _
  · exact (h.exec hr (State.memReadWord_eq_some.mp hf).1 he).closeCycle

theorem tick (ht : s.tick = .next t) : t.Inv := by
  unfold State.tick at ht
  split at ht
  · exact h.cycle (by assumption) ht
  · cases ht; exact h

/-- The state after the first steps of start, whatever it then loads, running or faulted (R152, R155). -/
theorem resetForStart {r : RunState} {f : Option FaultRecord} {m : Memory} (hm : m.wf)
    (hf : r = .faulted ↔ f.isSome = true) : State.Inv { s.resetForStart with run := r, fault := f, mem := m } where
  memWf := hm
  index := by simp [State.resetForStart]
  counter := by simp [State.resetForStart]
  returns := by simp [State.resetForStart]
  faultRecord := hf
  published := h.published

theorem startProgram (program : List Byte) : (s.startProgram program).Inv := by
  unfold State.startProgram
  split
  case isTrue => exact h.resetForStart h.memWf (by simp)
  case isFalse hlen =>
    rw [Nat.not_lt] at hlen
    have hm := Memory.wf_writeBytes h.memWf 0x200 program (Nat.add_le_add_left hlen 0x200)
    exact h.resetForStart hm (by simp [State.resetForStart])

theorem hostStart {program : List Byte} (ht : s.hostStart program = .next t) : t.Inv := by
  unfold State.hostStart at ht
  split at ht
  · cases ht; exact h.startProgram program
  · cases ht

theorem hostStop : s.hostStop.Inv := by
  unfold State.hostStop
  split
  · exact h.withRun (by simp [*]) (by simp)
  · exact h.withRun (by simp [*]) (by simp)
  · exact h

theorem completeWait {x : Reg} (hr : s.run = .waitKey x) (k : Nat) : (s.completeWait x k).Inv := by
  refine (((h.setKey k true).setV x _).finishCycle).withRun ?_ (by simp)
  rw [State.setKey_eq]
  simp [State.finishCycle, hr]

theorem hostPress (k : Nat) : (s.hostPress k).Inv := by
  unfold State.hostPress
  split
  · exact h
  · split
    · exact h.completeWait (by assumption) k
    · exact h.setKey k true

theorem hostRelease (k : Nat) : (s.hostRelease k).Inv := by
  unfold State.hostRelease
  split
  · exact h
  · exact h.setKey k false

theorem deliver {e : HostEvent} (ht : s.deliver e = .next t) : t.Inv := by
  cases e with
  | tick => exact h.tick ht
  | start program => exact h.hostStart ht
  | stop => cases ht; exact h.hostStop
  | press k => cases ht; exact h.hostPress k
  | release k => cases ht; exact h.hostRelease k

theorem step (ht : step s = .next t) : t.Inv := by
  cases hs : s.hostScript with
  | nil => exact h.tick (step_eq_tick hs ▸ ht)
  | cons e rest => exact (h.withScript rest).deliver (step_eq_deliver hs ▸ ht)

end State.Inv

/-- Settles O53: at reset memory lists no cell, SP is 0, and there is neither fault nor snapshot. -/
theorem resetMeetsTheInvariant : Obligations.ResetMeetsTheInvariant where
  memWf := State.reset_mem_wf
  index := by decide
  counter := by decide
  returns := by decide
  faultRecord := by decide
  published := by decide

/-- Settles O54, by the host event that the step delivers. -/
theorem stepKeepsTheInvariant : Obligations.StepKeepsTheInvariant := fun _ _ hinv ht => hinv.step ht

end Sys2Proof.Machine
end

section
/-! What the rules say of each instruction (10_state.md R15, 60_exceptions.md R136), and that exec does it. -/

namespace Sys2Proof.Machine

/-! ### Push and pop -/

theorem State.frame_push {s t : State} {w : Word} (h : s.push w = some t) : Frame [.sp, .stack] s t := by
  obtain ⟨hsp, rfl⟩ := State.push_eq_some.mp h
  simp [Frame, State.getV, State.memRead]

theorem State.frame_pop {s t : State} {w : Word} (h : s.pop = some (w, t)) : Frame [.sp] s t := by
  obtain ⟨hsp, -, rfl⟩ := State.pop_eq_some.mp h
  simp [Frame, State.getV, State.memRead]

/-- Settles O7, by the two answers of a push and of a pop. -/
theorem pushAndPop : Obligations.PushAndPop := by
  intro s w
  refine ⟨State.push_eq_none.mpr, fun hsp => ?_, State.pop_eq_none.mpr, fun hsp => ?_⟩
  · have hpush : s.push w = some _ := State.push_eq_some.mpr ⟨hsp, rfl⟩
    refine ⟨_, hpush, by simp, rfl, fun k hk => ?_, State.frame_push hpush⟩
    simp [Ne.symm hk]
  · have hpop := State.pop_eq_some.mpr ⟨hsp, rfl, rfl⟩
    exact ⟨_, hpop, rfl, State.frame_pop hpop⟩

/-! ### When an operation answers none -/

/-- The fault condition of SKP and SKNP is that no latch exists (45_keypad_timers.md R120). -/
theorem State.keyOf_map_eq_none {s : State} {x : Reg} {f : Bool → State} :
    (s.keyOf x).map f = none ↔ 15 < (s.getV x).toNat := by
  rw [Option.map_eq_none_iff, State.keyOf, State.keyLatch_eq_none]

theorem Memory.not_rangeOk_iff {a len : Nat} : ¬Memory.rangeOk a len = true ↔ 0 < len ∧ 0xFFF < a + len - 1 := by
  rw [Memory.rangeOk_iff]; omega

theorem State.loadBytes_eq_none {s : State} {a len : Nat} :
    s.loadBytes a len = none ↔ 0 < len ∧ 0xFFF < a + len - 1 := by
  rw [← Memory.not_rangeOk_iff, State.loadBytes]; split <;> simp [*]

theorem State.storeBytes_eq_none {s : State} {a : Nat} {bs : List Byte} :
    s.storeBytes a bs = none ↔ 0 < bs.length ∧ 0xFFF < a + bs.length - 1 := by
  rw [← Memory.not_rangeOk_iff, State.storeBytes]; split <;> simp [*]

/-! ### The two answers of an instruction -/

/-- What the rules say the effect t of an instruction begun in s is: PC and the parts it may write. -/
def EffectAsRuled (i : Instr) (s t : State) : Prop := NextPc i s t.pc ∧ WritesOnlyItsParts i s t

/-- An instruction's answer in s: its effect where it has no fault, its fault entry where it has one. -/
def AnswersAsRuled (i : Instr) (s : State) (r : Result) : Prop :=
  ∃ t, r = .next t ∧ (faultOf i s = none → EffectAsRuled i s t) ∧
    ∀ cause, faultOf i s = some cause → Raised s cause i t

theorem answersAsRuled_next {i : Instr} {s t : State} (hf : faultOf i s = none) (ht : EffectAsRuled i s t) :
    AnswersAsRuled i s (.next t) :=
  ⟨t, rfl, fun _ => ht, fun _ hc => absurd (hf.symm.trans hc) (by simp)⟩

/-- An operation that answers none exactly on the fault condition of the instruction. -/
theorem answersAsRuled_orRaise {i : Instr} {s : State} {c : Fault} {o : Option State} {p : Prop} [Decidable p]
    (hf : faultOf i s = if p then some c else none) (hp : o = none ↔ p) (ho : ∀ t, o = some t → EffectAsRuled i s t) :
    AnswersAsRuled i s (s.orRaise i c o) := by
  cases o with
  | none =>
    have hf : faultOf i s = some c := by rw [hf, if_pos (hp.mp rfl)]
    refine ⟨_, rfl, fun hn => absurd (hf.symm.trans hn) (by simp), fun cause hc => ?_⟩
    obtain rfl : c = cause := Option.some.inj (hf.symm.trans hc)
    rfl
  | some t =>
    have hf : faultOf i s = none := by rw [hf, if_neg (fun h => by cases hp.mpr h)]
    exact answersAsRuled_next hf (ho t rfl)

/-! ### Effects that keep the stack and memory -/

/-- The two tables agree: an instruction whose parts leave out the registers may write none of them (R15). -/
theorem mayWriteRegister_of_v_notMem {i : Instr} (h : Part.v ∉ partsWritten i) (r : Reg) :
    mayWriteRegister i r = false := by
  cases i <;> simp_all [partsWritten, mayWriteRegister]

/-- A frame from the fields, with the registers and the bytes of memory given apart. -/
theorem Frame.of_fields {w : List Part} {s t : State} (hf : Frame (.v :: .mem :: w) s t)
    (hv : Part.v ∉ w → ∀ r, t.getV r = s.getV r) (hm : t.mem = s.mem) : Frame w s t := by
  simpa [Frame, State.memRead, hm] using And.intro hv hf

theorem effectAsRuled_of_fields {i : Instr} {s t : State} (hpc : NextPc i s t.pc)
    (hf : Frame (.v :: .mem :: partsWritten i) s t) (hv : ∀ r, mayWriteRegister i r = false → t.getV r = s.getV r)
    (hs : t.stack = s.stack) (hm : t.mem = s.mem) : EffectAsRuled i s t :=
  ⟨hpc, hf.of_fields (fun h r => hv r (mayWriteRegister_of_v_notMem h r)) hm, hv, fun k _ => by rw [hs],
    memSameOutside_of_mem_eq _ _ hm⟩

/-- A register past the loaded ones is kept. -/
theorem State.getV_setRegs_above {s : State} {k : Nat} {bs : List Byte} {r : Reg} (hr : k + bs.length ≤ r.toNat) :
    (s.setRegs k bs).getV r = s.getV r := by
  rw [State.getV_setRegs _ _ _ (by omega), dif_neg (by omega)]

@[simp] theorem State.getV_rand (s : State) (r : Reg) : s.rand.2.getV r = s.getV r := rfl

theorem State.pc_advance_skipIf (s : State) (c : Bool) :
    (s.advance.skipIf c).pc = if c then s.pc + 4 else s.pc + 2 := by
  rw [State.skipIf_eq]
  cases c
  · rfl
  · simp [BitVec.add_assoc]

theorem effectAsRuled_skipIf {i : Instr} (s : State) (c : Bool) (hp : partsWritten i = [.pc]) (hb : storedBytes i = 0)
    (hn : NextPc i s (if c then s.pc + 4 else s.pc + 2)) : EffectAsRuled i s (s.advance.skipIf c) :=
  ⟨s.pc_advance_skipIf c ▸ hn, writesOnlyItsParts_skipIf s c hp hb⟩

/-! ### Effects that write the stack or memory -/

/-- CALL and JP V0: the return address goes to slot SP alone (R85, R86). -/
theorem answersAsRuled_pushAndJump {i : Instr} (s : State) {w target : Word}
    (hf : faultOf i s = if s.sp = 16 then some .stackOverflow else none) (hp : partsWritten i = [.pc, .sp, .stack])
    (hn : NextPc i s target) :
    AnswersAsRuled i s (s.orRaise i .stackOverflow ((s.advance.push w).map fun t => t.setPc target)) := by
  refine answersAsRuled_orRaise hf (by rw [Option.map_eq_none_iff, State.push_eq_none]; rfl) fun t ht => ?_
  obtain ⟨u, hpush, rfl⟩ := Option.map_eq_some_iff.mp ht
  obtain ⟨hsp, rfl⟩ := State.push_eq_some.mp hpush
  refine ⟨hn, ?_, fun _ _ => rfl, fun k hk => ?_, memSameOutside_of_mem_eq _ _ rfl⟩
  · rw [hp]; simp [Frame, State.getV, State.memRead]
  · exact Vector.getElem_set_ne hsp k.isLt hk.symm

/-- LD B and LD [I]: the bytes are stored from the address in I on, or none is (R106, R110, R111). -/
theorem answersAsRuled_store {i : Instr} (s : State) {bs : List Byte}
    (hf : faultOf i s = if 0xFFF < s.i.toNat + (bs.length - 1) then some .addressOutOfRange else none)
    (hp : partsWritten i = [.pc, .mem]) (hb : storedBytes i = bs.length) (hne : 0 < bs.length)
    (hn : NextPc i s (s.pc + 2)) :
    AnswersAsRuled i s (s.orRaise i .addressOutOfRange (s.advance.storeBytes s.base bs)) := by
  refine answersAsRuled_orRaise hf (by rw [State.storeBytes_eq_none, State.base]; omega) fun t ht => ?_
  obtain ⟨-, rfl⟩ := State.storeBytes_eq_some.mp ht
  refine ⟨hn, hp ▸ s.frame_store _, fun _ _ => rfl, fun _ _ => rfl, ?_⟩
  rw [hb]
  exact State.store_outside s.advance s.base bs

/-! ### Every instruction -/

theorem exec_answersAsRuled (i : Instr) (s : State) : AnswersAsRuled i s (exec i s) := by
  cases i with
  | seImm x kk | sneImm x kk | seReg x y | sneReg x y =>
    exact answersAsRuled_next rfl (effectAsRuled_skipIf s _ rfl rfl (by simp [NextPc]))
  | skp x | sknp x =>
    refine answersAsRuled_orRaise rfl State.keyOf_map_eq_none fun t ht => ?_
    obtain ⟨down, hkey, rfl⟩ := Option.map_eq_some_iff.mp ht
    refine effectAsRuled_skipIf s _ rfl rfl ?_
    rw [NextPc, ← State.keyOf, hkey]
    simp
  | ldImm x kk | addImm x kk | ldReg x y | orReg x y | andReg x y | xorReg x y | ldVxDT x | rnd x kk =>
    refine answersAsRuled_next rfl (effectAsRuled_of_fields rfl ?_ (fun r hr => ?_) rfl rfl)
    · simp [Frame, partsWritten, State.rand]
    · have hne : r ≠ x := by simpa [mayWriteRegister] using hr
      simp [hne]
  | addReg x y | subReg x y | shr x y | subnReg x y | shl x y =>
    refine answersAsRuled_next rfl (effectAsRuled_of_fields rfl ?_ (fun r hr => ?_) rfl rfl)
    · simp [Frame, partsWritten, State.flagThenShift]
    · have hne : r ≠ x ∧ r ≠ VF := by simpa [mayWriteRegister] using hr
      simp [hne, State.flagThenShift]
  | cls | ldI nnn | ldF x | ldDTVx x | ldSTVx x | ldVxK x =>
    exact answersAsRuled_next rfl
      (effectAsRuled_of_fields rfl (by simp [Frame, partsWritten]) (fun _ _ => rfl) rfl rfl)
  | addI x =>
    refine answersAsRuled_next rfl (effectAsRuled_of_fields rfl ?_ (fun r hr => ?_) rfl rfl)
    · simp [Frame, partsWritten]
    · have hne : r ≠ VF := by simpa [mayWriteRegister] using hr
      simp [hne]
  | sys nnn | jp nnn =>
    exact answersAsRuled_next rfl
      (effectAsRuled_of_fields (addrWord_toNat nnn) (by simp [Frame, partsWritten]) (fun _ _ => rfl) rfl rfl)
  | call nnn => exact answersAsRuled_pushAndJump s rfl rfl (addrWord_toNat nnn)
  | jpV0 nnn => exact answersAsRuled_pushAndJump s rfl rfl (jumpV0Target_toNat nnn _)
  | ret =>
    refine answersAsRuled_orRaise rfl (by rw [Option.map_eq_none_iff, State.pop_eq_none]; rfl) fun t ht => ?_
    obtain ⟨⟨w, u⟩, hpop, rfl⟩ := Option.map_eq_some_iff.mp ht
    obtain ⟨hsp, rfl, rfl⟩ := State.pop_eq_some.mp hpop
    refine effectAsRuled_of_fields ⟨hsp, rfl⟩ ?_ (fun _ _ => rfl) rfl rfl
    simp [Frame, partsWritten, State.getV, State.memRead]
  | drw x y n =>
    refine answersAsRuled_orRaise rfl (by rw [Option.map_eq_none_iff, State.loadBytes_eq_none]; rfl) fun t ht => ?_
    obtain ⟨rows, -, rfl⟩ := Option.map_eq_some_iff.mp ht
    refine effectAsRuled_of_fields rfl ?_ (fun r hr => ?_) rfl rfl
    · simp [Frame, partsWritten]
    · have hne : r ≠ VF := by simpa [mayWriteRegister] using hr
      rw [State.getV_setV, if_neg hne]
      rfl
  | ldB x => exact answersAsRuled_store s rfl rfl rfl (by simp [bcdDigits]) rfl
  | ldMemVx x =>
    have hlen := s.length_regsUpTo x
    exact answersAsRuled_store s (by rw [hlen]; rfl) rfl hlen.symm (by omega) rfl
  | ldVxMem x =>
    refine answersAsRuled_orRaise rfl (by rw [Option.map_eq_none_iff, State.loadBytes_eq_none, State.base]; omega)
      fun t ht => ?_
    obtain ⟨bs, hload, rfl⟩ := Option.map_eq_some_iff.mp ht
    obtain ⟨-, rfl⟩ := State.loadBytes_eq_some.mp hload
    have hlen := s.mem.length_readBytes s.base (x.toNat + 1)
    have hkept (r : Reg) (hr : mayWriteRegister (.ldVxMem x) r = false) :
        (s.advance.setRegs 0 (s.mem.readBytes s.base (x.toNat + 1))).getV r = s.getV r := by
      have hr : ¬r.toNat ≤ x.toNat := by simpa [mayWriteRegister] using hr
      rw [State.getV_setRegs_above (by omega), State.getV_advance]
    rw [State.setRegs_eq] at hkept ⊢
    exact effectAsRuled_of_fields rfl (by simp [Frame, partsWritten]) hkept rfl rfl

/-! ### The claims -/

/-- Settles O10, by the answer of each instruction. -/
theorem everyInstructionAnswersANextState : Obligations.EveryInstructionAnswersANextState := by
  intro i s
  obtain ⟨t, ht, heffect, hfault⟩ := exec_answersAsRuled i s
  exact ⟨t, ht, fun hn => ⟨(heffect hn).1, (heffect hn).2.1⟩, hfault⟩

/-- Settles O55, by the same answers, the one fault condition met or not. -/
theorem instructionsWriteOnlyTheirParts : Obligations.InstructionsWriteOnlyTheirParts := by
  intro i s t ht
  obtain ⟨u, hu, heffect, hfault⟩ := exec_answersAsRuled i s
  obtain rfl : t = u := Host.Outcome.next.inj (ht.symm.trans hu)
  cases hc : faultOf i s with
  | none => exact .inl ⟨rfl, (heffect hc).2⟩
  | some cause => exact .inr ⟨cause, rfl, hfault cause hc⟩

/-! ### The keypad latch -/

theorem exec_key {i : Instr} {s t : State} (ht : exec i s = .next t) : t.key = s.key := by
  have hnot : Part.key ∉ partsWritten i := by cases i <;> simp [partsWritten]
  obtain ⟨-, hframe, -⟩ | ⟨cause, -, hraised⟩ := instructionsWriteOnlyTheirParts i s t ht
  · obtain ⟨-, -, -, -, -, -, -, -, hkey, -⟩ := hframe
    exact hkey hnot
  · rw [hraised]

theorem State.closeCycle_key (t : State) : t.closeCycle.key = t.key := by
  unfold State.closeCycle
  split <;> rfl

theorem State.cycle_key {s t : State} (ht : s.cycle = .next t) : t.key = s.key := by
  obtain rfl | ⟨op, rfl⟩ | ⟨op, i, u, -, -, he, rfl⟩ := State.cycle_cases ht
  · rfl
  · rfl
  · rw [State.closeCycle_key, exec_key he]

theorem State.tick_key {s t : State} (ht : s.tick = .next t) : t.key = s.key := by
  unfold State.tick at ht
  split at ht
  · exact State.cycle_key ht
  · cases ht; rfl

theorem State.hostStart_key {s t : State} {program : List Byte} (ht : s.hostStart program = .next t) :
    t.key = s.key := by
  unfold State.hostStart State.startProgram at ht
  split at ht
  · cases ht; split <;> rfl
  · cases ht

/-- Of the host's events only a press and a release of a key up to 15 move the latch (R27). -/
theorem State.deliver_key {s t : State} {e : HostEvent} (ht : s.deliver e = .next t) (hk : t.key ≠ s.key) :
    ∃ k, k ≤ 15 ∧ (e = .press k ∨ e = .release k) := by
  cases e with
  | tick => exact absurd (State.tick_key ht) hk
  | start program => exact absurd (State.hostStart_key ht) hk
  | stop =>
    cases ht
    unfold State.hostStop at hk
    split at hk <;> exact absurd rfl hk
  | press k =>
    cases ht
    refine ⟨k, Nat.not_lt.mp fun hlt => hk ?_, .inl rfl⟩
    rw [State.hostPress, if_pos hlt]
  | release k =>
    cases ht
    refine ⟨k, Nat.not_lt.mp fun hlt => hk ?_, .inr rfl⟩
    rw [State.hostRelease, if_pos hlt]

/-- Settles O57, by the event that the step delivers. -/
theorem onlyKeyEventsMoveTheLatch : Obligations.OnlyKeyEventsMoveTheLatch := by
  intro s t ht hk
  cases hs : s.hostScript with
  | nil =>
    rw [step_eq_tick hs] at ht
    exact absurd (State.tick_key ht) hk
  | cons e rest =>
    rw [step_eq_deliver hs] at ht
    obtain ⟨k, hle, he⟩ := State.deliver_key ht hk
    exact ⟨k, rest, hle, by simpa using he⟩

end Sys2Proof.Machine
end

section
/-! What a program cannot observe: the value of ST, and the stack slots at SP and above (10_state.md R19, R21, R36). -/

namespace Sys2Proof.Machine

/-! ### Overwriting ST and the stack slots -/

/-- The state with ST and the stack slots overwritten. -/
def State.overwrite (f : Byte → Byte) (g : Vector Word 16 → Vector Word 16) (s : State) : State :=
  { s with st := f s.st, stack := g s.stack }

section
variable {f : Byte → Byte} {g : Vector Word 16 → Vector Word 16}

theorem State.advance_overwrite (s : State) : (s.overwrite f g).advance = s.advance.overwrite f g := rfl

theorem State.skipIf_overwrite (s : State) (c : Bool) : (s.overwrite f g).skipIf c = (s.skipIf c).overwrite f g := by
  cases c <;> rfl

theorem State.setRegs_overwrite (s : State) (k : Nat) (bs : List Byte) :
    (s.overwrite f g).setRegs k bs = (s.setRegs k bs).overwrite f g := by
  induction bs generalizing s k with
  | nil => rfl
  | cons b bs ih => exact ih (s.setV (BitVec.ofNat 4 k) b) (k + 1)

theorem State.storeBytes_overwrite (s : State) (a : Nat) (bs : List Byte) :
    (s.overwrite f g).storeBytes a bs = (s.storeBytes a bs).map (State.overwrite f g) := by
  unfold State.storeBytes
  split <;> rfl

/-- An instruction whose operation commutes with the overwriting: so does its fault entry. -/
theorem State.orRaise_overwrite {s t : State} {i : Instr} {c : Fault} {o o' : Option State}
    (ho : o' = o.map (State.overwrite f g)) (ht : s.orRaise i c o = .next t) :
    (s.overwrite f g).orRaise i c o' = .next (t.overwrite f g) := by
  subst ho
  cases o <;> cases ht <;> rfl

/-- The same, for an operation that reads x from the other parts of the state and then writes. -/
theorem State.orRaise_map_overwrite {α : Type} {s t : State} {i : Instr} {c : Fault} {x : Option α} {F F' : α → State}
    (hF : ∀ a, F' a = (F a).overwrite f g) (ht : s.orRaise i c (x.map F) = .next t) :
    (s.overwrite f g).orRaise i c (x.map F') = .next (t.overwrite f g) :=
  State.orRaise_overwrite (by rw [Option.map_map]; exact congrArg (Option.map · x) (funext hF)) ht

/-- Only RET, CALL and JP V0 use the stack and only LD ST, Vx writes ST: every other instruction does in the overwritten
state what it does in the state as it was. -/
theorem exec_overwrite (f : Byte → Byte) (g : Vector Word 16 → Vector Word 16) {i : Instr} {s t : State}
    (hsp : Part.sp ∉ partsWritten i) (hst : Part.st ∉ partsWritten i) (ht : exec i s = .next t) :
    exec i (s.overwrite f g) = .next (t.overwrite f g) := by
  cases i with
  | ret | call nnn | jpV0 nnn => simp [partsWritten] at hsp
  | ldSTVx x => simp [partsWritten] at hst
  | seImm x kk | sneImm x kk | seReg x y | sneReg x y =>
    cases ht; exact congrArg Host.Outcome.next (s.advance.skipIf_overwrite _)
  | skp x | sknp x => exact State.orRaise_map_overwrite (fun _ => s.advance.skipIf_overwrite _) ht
  | ldB x | ldMemVx x => exact State.orRaise_overwrite (s.advance.storeBytes_overwrite _ _) ht
  | drw x y n => exact State.orRaise_map_overwrite (fun _ => rfl) ht
  | ldVxMem x => exact State.orRaise_map_overwrite (fun bs => s.advance.setRegs_overwrite 0 bs) ht
  | _ => cases ht; rfl

end

/-! ### ST -/

theorem State.push_overwriteST (s : State) (f : Byte → Byte) (w : Word) :
    (s.overwrite f id).push w = (s.push w).map (State.overwrite f id) := by
  cases h : s.push w with
  | none =>
    have hsp : s.sp = 16 := State.push_eq_none.mp h
    exact State.push_eq_none.mpr hsp
  | some t =>
    obtain ⟨hsp, rfl⟩ := State.push_eq_some.mp h
    exact State.push_eq_some.mpr ⟨hsp, rfl⟩

theorem State.pop_overwriteST (s : State) (f : Byte → Byte) :
    (s.overwrite f id).pop = s.pop.map fun p => (p.1, p.2.overwrite f id) := by
  cases h : s.pop with
  | none =>
    have hsp : s.sp = 0 := State.pop_eq_none.mp h
    exact State.pop_eq_none.mpr hsp
  | some p =>
    obtain ⟨hsp, hw, hu⟩ := State.pop_eq_some.mp h
    exact State.pop_eq_some.mpr ⟨hsp, hw, congrArg (State.overwrite f id) hu⟩

/-- With the stack kept, RET, CALL and JP V0 carry ST along too. -/
theorem exec_overwriteST {i : Instr} {s t : State} (f : Byte → Byte) (hst : Part.st ∉ partsWritten i)
    (ht : exec i s = .next t) : exec i (s.overwrite f id) = .next (t.overwrite f id) := by
  cases i with
  | ret =>
    refine State.orRaise_overwrite ?_ ht
    rw [State.advance_overwrite, State.pop_overwriteST, Option.map_map, Option.map_map]
    rfl
  | call nnn | jpV0 nnn =>
    refine State.orRaise_overwrite ?_ ht
    rw [State.advance_overwrite, State.push_overwriteST, Option.map_map, Option.map_map]
    rfl
  | _ => exact exec_overwrite f id (by simp [partsWritten]) hst ht

/-- Settles O58: LD ST, Vx overwrites ST, and every other instruction carries it along. -/
theorem soundTimerIsUnobservable : Obligations.SoundTimerIsUnobservable := by
  intro i s t a ht
  by_cases hst : Part.st ∈ partsWritten i
  · obtain ⟨x, rfl⟩ : ∃ x, i = .ldSTVx x := by cases i <;> simp_all [partsWritten]
    cases ht
    exact ⟨_, rfl, rfl⟩
  · exact ⟨_, exec_overwriteST (fun _ => a) hst ht, rfl⟩

/-! ### Stale stack slots -/

/-- Two states that differ at most in stack slots at SP or above. -/
def SameButStale (s s' : State) : Prop := { s' with stack := s.stack } = s ∧ SameLiveStack s s'

theorem SameButStale.eq_withStack {s s' : State} (h : SameButStale s s') : ∃ k, s' = { s with stack := k } :=
  ⟨s'.stack, by rw [← h.1]⟩

theorem SameButStale.setPc {s s' : State} (h : SameButStale s s') (w : Word) : SameButStale (s.setPc w) (s'.setPc w) :=
  ⟨congrArg (State.setPc · w) h.1, h.2⟩

theorem SameButStale.raise {s s' : State} (h : SameButStale s s') (c : Fault) (op : Option Word) :
    SameButStale (s.raise c op) (s'.raise c op) :=
  ⟨congrArg (State.raise · c op) h.1, h.2⟩

/-- A push writes the one slot that becomes live. -/
theorem SameButStale.push {s s' : State} (h : SameButStale s s') (w : Word) :
    Option.Rel SameButStale (s.push w) (s'.push w) := by
  obtain ⟨k, rfl⟩ := h.eq_withStack
  obtain ⟨-, -, hlive⟩ := h
  cases hp : s.push w with
  | none =>
    have hsp : s.sp = 16 := State.push_eq_none.mp hp
    have hp' : State.push { s with stack := k } w = none := State.push_eq_none.mpr hsp
    rw [hp']
    exact .none
  | some t =>
    obtain ⟨hsp, rfl⟩ := State.push_eq_some.mp hp
    have hp' : State.push { s with stack := k } w = some _ := State.push_eq_some.mpr ⟨hsp, rfl⟩
    rw [hp']
    refine .some ⟨rfl, rfl, fun j hj => ?_⟩
    have hj : j.val < s.sp.val + 1 := hj
    simp only [Fin.getElem_fin, Vector.getElem_set]
    split
    · rfl
    · exact hlive j (by omega)

/-- A pop reads a live slot, and makes it stale. -/
theorem SameButStale.pop {s s' : State} (h : SameButStale s s') :
    Option.Rel (fun p q => p.1 = q.1 ∧ SameButStale p.2 q.2) s.pop s'.pop := by
  obtain ⟨k, rfl⟩ := h.eq_withStack
  obtain ⟨-, -, hlive⟩ := h
  cases hp : s.pop with
  | none =>
    have hsp : s.sp = 0 := State.pop_eq_none.mp hp
    have hp' : State.pop { s with stack := k } = none := State.pop_eq_none.mpr hsp
    rw [hp']
    exact .none
  | some p =>
    obtain ⟨hsp, hw, hu⟩ := State.pop_eq_some.mp hp
    have hp' : State.pop { s with stack := k } = some _ := State.pop_eq_some.mpr ⟨hsp, rfl, rfl⟩
    have htop := hlive ⟨s.sp.val - 1, by have := s.sp.isLt; omega⟩ (Nat.sub_lt hsp Nat.one_pos)
    rw [hp']
    refine .some ⟨hw.trans htop, ?_⟩
    rw [hu]
    exact ⟨rfl, rfl, fun j hj => hlive j (Nat.lt_of_lt_of_le hj (Nat.sub_le _ 1))⟩

/-- An instruction whose operation answers alike in both states: so does its fault entry. -/
theorem SameButStale.orRaise_map {α : Type} {R : α → α → Prop} {s s' t : State} {i : Instr} {c : Fault}
    {x x' : Option α} {F F' : α → State} (h : SameButStale s s') (hx : Option.Rel R x x')
    (hF : ∀ a a', R a a' → SameButStale (F a) (F' a')) (ht : s.orRaise i c (x.map F) = .next t) :
    ∃ t', s'.orRaise i c (x'.map F') = .next t' ∧ SameButStale t t' := by
  cases hx with
  | none => cases ht; exact ⟨_, rfl, h.raise _ _⟩
  | some hr => cases ht; exact ⟨_, rfl, hF _ _ hr⟩

/-- An instruction that keeps SP keeps the stack. -/
theorem exec_stack {i : Instr} {s t : State} (hsp : Part.sp ∉ partsWritten i) (ht : exec i s = .next t) :
    t.sp = s.sp ∧ t.stack = s.stack := by
  have hst : Part.stack ∉ partsWritten i := by cases i <;> simp_all [partsWritten]
  obtain ⟨-, ⟨-, -, -, -, -, hsp', hst', -⟩, -⟩ | ⟨cause, -, rfl⟩ := instructionsWriteOnlyTheirParts i s t ht
  · exact ⟨hsp' hsp, hst' hst⟩
  · exact ⟨rfl, rfl⟩

theorem exec_sameButStale {i : Instr} {s s' t : State} (h : SameButStale s s') (ht : exec i s = .next t) :
    ∃ t', exec i s' = .next t' ∧ SameButStale t t' := by
  obtain ⟨k, rfl⟩ := h.eq_withStack
  have hadv := h.setPc (s.pc + 2)
  cases i with
  | ret => exact h.orRaise_map hadv.pop (fun p q ⟨hw, hu⟩ => hw ▸ hu.setPc p.1) ht
  | call nnn | jpV0 nnn => exact h.orRaise_map (hadv.push s.advance.pc) (fun _ _ hu => SameButStale.setPc hu _) ht
  | ldSTVx x => cases ht; exact ⟨_, rfl, rfl, h.2⟩
  | _ =>
    obtain ⟨hsp, hstack⟩ := exec_stack (by simp [partsWritten]) ht
    refine ⟨_, exec_overwrite id (fun _ => k) (by simp [partsWritten]) (by simp [partsWritten]) ht, rfl, rfl, ?_⟩
    rw [hsp, hstack]
    exact h.2.2

/-- Settles O59: RET, CALL and JP V0 keep the live slots alike, and every other instruction keeps the stack. -/
theorem staleStackSlotsAreUnobservable : Obligations.StaleStackSlotsAreUnobservable :=
  fun _ _ _ _ heq hlive ht => exec_sameButStale ⟨heq, hlive⟩ ht

end Sys2Proof.Machine
end

section
/-! The memory primitives (20_memory.md R39 to R41, R43), and a store that the next fetch reads (R53). -/

namespace Sys2Proof.Machine

/-! ### A byte and a word -/

/-- A word read answers the two bytes that byte reads answer, the first one high (R40). -/
theorem State.memReadWord_of_memRead {s : State} {a : Nat} {hi lo : Byte} (hhi : s.memRead a = some hi)
    (hlo : s.memRead (a + 1) = some lo) : s.memReadWord a = some (wordOfBytes hi lo) := by
  obtain ⟨-, rfl⟩ := State.memRead_eq_some.mp hhi
  obtain ⟨hle, rfl⟩ := State.memRead_eq_some.mp hlo
  exact State.memReadWord_eq_some.mpr ⟨Nat.le_of_succ_le_succ hle, rfl⟩

theorem State.memWrite_eq_none {s : State} {a : Nat} {b : Byte} : s.memWrite a b = none ↔ 0xFFF < a := by
  simp [State.memWrite]

theorem State.memRead_memWrite_same {s t : State} {a : Nat} {b : Byte} (h : s.memWrite a b = some t) :
    t.memRead a = some b := by
  obtain ⟨hle, rfl⟩ := State.memWrite_eq_some.mp h
  exact State.memRead_eq_some.mpr ⟨hle, by simp⟩

/-- A byte write is the store of a list of one byte. -/
theorem State.memWrite_outside {s t : State} {a : Nat} {b : Byte} (h : s.memWrite a b = some t) :
    MemSameOutside a 1 s t := by
  obtain ⟨-, rfl⟩ := State.memWrite_eq_some.mp h
  exact s.store_outside a [b]

theorem State.frame_memWrite {s t : State} {a : Nat} {b : Byte} (h : s.memWrite a b = some t) : Frame [.mem] s t := by
  obtain ⟨-, rfl⟩ := State.memWrite_eq_some.mp h
  simp [Frame, State.getV]

/-- Settles O6, by what each access answers inside memory and above it. -/
theorem byteAndWordAccesses : Obligations.ByteAndWordAccesses := by
  intro s a
  refine ⟨State.memRead_eq_none.mpr, fun ha => ⟨_, State.memRead_eq_some.mpr ⟨ha, rfl⟩⟩,
    fun ha => State.memReadWord_eq_none.mpr (Nat.lt_of_succ_lt_succ ha), fun hi lo hhi hlo => ?_,
    fun _ => State.memWrite_eq_none.mpr, fun b ha => ?_⟩
  · exact ⟨_, State.memReadWord_of_memRead hhi hlo, wordOfBytes_toNat hi lo⟩
  · have hw : s.memWrite a b = some _ := State.memWrite_eq_some.mpr ⟨ha, rfl⟩
    exact ⟨_, hw, State.memRead_memWrite_same hw, State.memWrite_outside hw, State.frame_memWrite hw⟩

/-! ### The registers stored from I on -/

/-- LD [I], Vx inside memory: PC advances and the registers are stored (43_index_memory.md R111). -/
theorem exec_ldMemVx_inside {x : Reg} {s : State} (hr : s.base + x.toNat ≤ 0xFFF) :
    exec (.ldMemVx x) s = .next { s.advance with mem := s.mem.writeBytes s.base (s.regsUpTo x) } := by
  have hlast : s.base + (s.regsUpTo x).length - 1 ≤ 0xFFF := by rw [State.length_regsUpTo]; exact hr
  exact congrArg (s.orRaise (.ldMemVx x) .addressOutOfRange) (State.storeBytes_inside hlast)

/-- The byte r past the address in I then reads as V[r]. -/
theorem memRead_of_exec_ldMemVx {x r : Reg} {s t : State} (hr : s.base + x.toNat ≤ 0xFFF)
    (ht : exec (.ldMemVx x) s = .next t) (hrx : r.toNat ≤ x.toNat) : t.memRead (s.base + r.toNat) = some (s.getV r) := by
  obtain rfl := Host.Outcome.next.inj ((exec_ldMemVx_inside hr).symm.trans ht)
  have hlen := s.length_regsUpTo x
  refine State.memRead_eq_some.mpr ⟨by omega, ?_⟩
  rw [Memory.read_writeBytes, dif_pos (by omega), State.getElem_regsUpTo]
  simp

/-- Settles O38: V[0] and V[1] are the two bytes at the PC that the store leaves. -/
theorem storedWordIsFetchedNext : Obligations.StoredWordIsFetchedNext := by
  intro x s t hx hr ht hpc
  have hhi : t.memRead s.base = some (s.getV 0) := memRead_of_exec_ldMemVx (r := 0) hr ht (Nat.zero_le _)
  have hlo : t.memRead (s.base + 1) = some (s.getV 1) := memRead_of_exec_ldMemVx (r := 1) hr ht hx
  rw [State.fetch, ← hpc]
  exact State.memReadWord_of_memRead hhi hlo

end Sys2Proof.Machine
end

section
/-! The decoder and the encoder (30_encoding.md R58, R60): each undoes the other, and the words the decoder rejects. -/

namespace Sys2Proof

/-! ### The decoder on a word written by its fields -/

/-- In a family whose instructions have an address field, the decoder's answer is a function of that address. -/
theorem decodeWord_of_addr {f : BitVec 4} {g : Addr12 → DecodeResult}
    (h : ∀ x y n, decodeNibbles f x y n = g (x ++ y ++ n)) (nnn : Addr12) : decodeWord (f ++ nnn) = g nnn := by
  obtain ⟨x, y, n, rfl, hd⟩ := decodeWord_addr f nnn
  rw [hd, h]

/-- In a family whose instructions have a register and a byte field, it is a function of these two. -/
theorem decodeWord_of_byte {f : BitVec 4} {g : Reg → Byte → DecodeResult}
    (h : ∀ x y n, decodeNibbles f x y n = g x (y ++ n)) (x : Reg) (kk : Byte) : decodeWord (f ++ x ++ kk) = g x kk := by
  obtain ⟨y, n, rfl, hd⟩ := decodeWord_byte f x kk
  rw [hd, h]

theorem decodeWord_family0 (nnn : Addr12) : decodeWord (0x0#4 ++ nnn) = decodeFamily0 nnn :=
  decodeWord_of_addr (fun _ _ _ => rfl) nnn

theorem decodeWord_family8 (x y : Reg) (n : Nibble) : decodeWord (0x8#4 ++ x ++ y ++ n) = decodeFamily8 x y n :=
  decodeWord_append _ x y n

theorem decodeWord_familyE (x : Reg) (kk : Byte) : decodeWord (0xE#4 ++ x ++ kk) = decodeFamilyE x kk :=
  decodeWord_of_byte (fun _ _ _ => rfl) x kk

theorem decodeWord_familyF (x : Reg) (kk : Byte) : decodeWord (0xF#4 ++ x ++ kk) = decodeFamilyF x kk :=
  decodeWord_of_byte (fun _ _ _ => rfl) x kk

/-! ### Decode after encode -/

/-- SYS is left over for the addresses that are not CLS or RET (R59). -/
theorem decodeFamily0_sys {nnn : Addr12} (h : WellFormed (.sys nnn)) : decodeFamily0 nnn = .ok (.sys nnn) := by
  unfold decodeFamily0
  split
  · exact absurd h (by decide)
  · exact absurd h (by decide)
  · rfl

/-- Every well-formed instruction is what its own word decodes to, by the fields of its row (R60). -/
theorem decodeWord_encode : ∀ i, WellFormed i → decodeWord (encode i) = .ok i
  | .cls, _ | .ret, _ => by decide
  | .sys nnn, h => (decodeWord_family0 nnn).trans (decodeFamily0_sys h)
  | .jp nnn, _ => decodeWord_of_addr (g := fun a => .ok (.jp a)) (fun _ _ _ => rfl) nnn
  | .call nnn, _ => decodeWord_of_addr (g := fun a => .ok (.call a)) (fun _ _ _ => rfl) nnn
  | .ldI nnn, _ => decodeWord_of_addr (g := fun a => .ok (.ldI a)) (fun _ _ _ => rfl) nnn
  | .jpV0 nnn, _ => decodeWord_of_addr (g := fun a => .ok (.jpV0 a)) (fun _ _ _ => rfl) nnn
  | .seImm x kk, _ => decodeWord_of_byte (g := fun r b => .ok (.seImm r b)) (fun _ _ _ => rfl) x kk
  | .sneImm x kk, _ => decodeWord_of_byte (g := fun r b => .ok (.sneImm r b)) (fun _ _ _ => rfl) x kk
  | .ldImm x kk, _ => decodeWord_of_byte (g := fun r b => .ok (.ldImm r b)) (fun _ _ _ => rfl) x kk
  | .addImm x kk, _ => decodeWord_of_byte (g := fun r b => .ok (.addImm r b)) (fun _ _ _ => rfl) x kk
  | .rnd x kk, _ => decodeWord_of_byte (g := fun r b => .ok (.rnd r b)) (fun _ _ _ => rfl) x kk
  | .seReg x y, _ | .sneReg x y, _ => decodeWord_append _ x y _
  | .drw x y n, _ => decodeWord_append _ x y n
  | .ldReg x y, _ | .orReg x y, _ | .andReg x y, _ | .xorReg x y, _ | .addReg x y, _ => decodeWord_family8 x y _
  | .subReg x y, _ | .shr x y, _ | .subnReg x y, _ | .shl x y, _ => decodeWord_family8 x y _
  | .skp x, _ | .sknp x, _ => decodeWord_familyE x _
  | .ldVxDT x, _ | .ldDTVx x, _ | .ldSTVx x, _ | .ldVxK x, _ | .addI x, _ => decodeWord_familyF x _
  | .ldF x, _ | .ldB x, _ | .ldMemVx x, _ | .ldVxMem x, _ => decodeWord_familyF x _

/-- Settles O1: the word by the fields of its row, its bytes by the word they are. -/
theorem encodedInstructionsDecodeBack : Obligations.EncodedInstructionsDecodeBack := by
  intro i hi
  refine ⟨decodeWord_encode i hi, fun rest => ?_⟩
  rw [decodeBytes_bytesOfWord, decodeWord_encode i hi]

/-! ### Encode after decode -/

/-- An answer that is a reject, or an instruction whose word is the one asked for. -/
def EncodesTo (w : Word) (r : DecodeResult) : Prop := ∀ i, r = .ok i → WellFormed i ∧ encode i = w

theorem encodesTo_ok {w : Word} {i : Instr} (hi : WellFormed i) (hw : encode i = w) : EncodesTo w (.ok i) := by
  rintro _ ⟨⟩
  exact ⟨hi, hw⟩

theorem encodesTo_reject (w : Word) (why : DecodeReject) : EncodesTo w (.reject why) := nofun

theorem decodeFamily0_encodesTo (nnn : Addr12) : EncodesTo (0x0#4 ++ nnn) (decodeFamily0 nnn) := by
  unfold decodeFamily0
  split
  · exact encodesTo_ok rfl rfl
  · exact encodesTo_ok rfl rfl
  next hcls hret => exact encodesTo_ok (by simpa [WellFormed, Instr.wf] using ⟨hcls, hret⟩) rfl

theorem decodeFamily8_encodesTo (x y : Reg) (n : Nibble) :
    EncodesTo (0x8#4 ++ x ++ y ++ n) (decodeFamily8 x y n) := by
  unfold decodeFamily8
  split
  case h_10 => exact encodesTo_reject _ _
  all_goals exact encodesTo_ok rfl rfl

theorem decodeFamilyE_encodesTo (x : Reg) (kk : Byte) : EncodesTo (0xE#4 ++ x ++ kk) (decodeFamilyE x kk) := by
  unfold decodeFamilyE
  split
  case h_3 => exact encodesTo_reject _ _
  all_goals exact encodesTo_ok rfl rfl

theorem decodeFamilyF_encodesTo (x : Reg) (kk : Byte) : EncodesTo (0xF#4 ++ x ++ kk) (decodeFamilyF x kk) := by
  unfold decodeFamilyF
  split
  case h_10 => exact encodesTo_reject _ _
  all_goals exact encodesTo_ok rfl rfl

/-- A row whose low nibble has to be 0 (R62). -/
theorem encodesTo_low_nibble_zero {f x y n : BitVec 4} {i : Instr} {why : DecodeReject} (hi : WellFormed i)
    (hw : encode i = f ++ x ++ y ++ 0x0#4) : EncodesTo (f ++ x ++ y ++ n) (if n = 0x0#4 then .ok i else .reject why) := by
  split
  next hn => exact encodesTo_ok hi (hn ▸ hw)
  next => exact encodesTo_reject _ _

/-- The decision tree of R58, family by family. -/
theorem decodeNibbles_encodesTo (f x y n : BitVec 4) : EncodesTo (f ++ x ++ y ++ n) (decodeNibbles f x y n) := by
  rcases nibble_cases f with rfl | rfl | rfl | rfl | rfl | rfl | rfl | rfl | rfl | rfl | rfl | rfl | rfl | rfl | rfl | rfl
  · exact append_addr 0x0#4 x y n ▸ decodeFamily0_encodesTo (x ++ y ++ n)
  · exact encodesTo_ok rfl (append_addr 0x1#4 x y n)
  · exact encodesTo_ok rfl (append_addr 0x2#4 x y n)
  · exact encodesTo_ok rfl (append_byte 0x3#4 x y n)
  · exact encodesTo_ok rfl (append_byte 0x4#4 x y n)
  · exact encodesTo_low_nibble_zero rfl rfl
  · exact encodesTo_ok rfl (append_byte 0x6#4 x y n)
  · exact encodesTo_ok rfl (append_byte 0x7#4 x y n)
  · exact decodeFamily8_encodesTo x y n
  · exact encodesTo_low_nibble_zero rfl rfl
  · exact encodesTo_ok rfl (append_addr 0xA#4 x y n)
  · exact encodesTo_ok rfl (append_addr 0xB#4 x y n)
  · exact encodesTo_ok rfl (append_byte 0xC#4 x y n)
  · exact encodesTo_ok rfl rfl
  · exact append_byte 0xE#4 x y n ▸ decodeFamilyE_encodesTo x (y ++ n)
  · exact append_byte 0xF#4 x y n ▸ decodeFamilyF_encodesTo x (y ++ n)

/-- Settles O2, by the four nibbles of the word. -/
theorem decodedWordsEncodeBack : Obligations.DecodedWordsEncodeBack := by
  intro w i hd
  have h := decodeNibbles_encodesTo (nibbleAt w 12) (nibbleAt w 8) (nibbleAt w 4) (nibbleAt w 0) i hd
  rwa [word_of_nibbles] at h

/-! ### The illegal words -/

/-- The answer is no instruction (R65). -/
def DecodeResult.Rejected (r : DecodeResult) : Prop := ∃ why, r = .reject why

@[simp] theorem DecodeResult.not_rejected_ok (i : Instr) : ¬(DecodeResult.ok i).Rejected := nofun

@[simp] theorem DecodeResult.rejected_reject (why : DecodeReject) : (DecodeResult.reject why).Rejected := ⟨why, rfl⟩

/-- A row whose low nibble has to be 0 (R62). -/
theorem rejected_low_nibble_zero_iff (n : Nibble) (i : Instr) (why : DecodeReject) :
    (if n = 0x0#4 then DecodeResult.ok i else .reject why).Rejected ↔ n.toNat ≠ 0 := by
  split <;> simp_all [BitVec.toNat_eq]

/-- No word of family 0 is illegal (92_eei_decisions.md D30). -/
theorem decodeFamily0_not_rejected (nnn : Addr12) : ¬(decodeFamily0 nnn).Rejected := by
  unfold decodeFamily0
  split <;> simp

theorem decodeFamily8_rejected_iff (x y : Reg) (n : Nibble) :
    (decodeFamily8 x y n).Rejected ↔ n.toNat ∈ [0x8, 0x9, 0xA, 0xB, 0xC, 0xD, 0xF] := by
  rcases nibble_cases n with rfl | rfl | rfl | rfl | rfl | rfl | rfl | rfl | rfl | rfl | rfl | rfl | rfl | rfl | rfl | rfl <;>
    simp [decodeFamily8]

theorem decodeFamilyE_rejected_iff (x : Reg) (kk : Byte) :
    (decodeFamilyE x kk).Rejected ↔ kk.toNat ∉ [0x9E, 0xA1] := by
  unfold decodeFamilyE
  split
  case h_3 => simp_all [BitVec.toNat_eq]
  all_goals simp

theorem decodeFamilyF_rejected_iff (x : Reg) (kk : Byte) :
    (decodeFamilyF x kk).Rejected ↔ kk.toNat ∉ [0x07, 0x0A, 0x15, 0x18, 0x1E, 0x29, 0x33, 0x55, 0x65] := by
  unfold decodeFamilyF
  split
  case h_10 => simp_all [BitVec.toNat_eq]
  all_goals simp

/-- The family, the low nibble and the low byte of a word, as numbers. -/
theorem word_fields_toNat (f x y n : BitVec 4) :
    (f ++ x ++ y ++ n : Word).toNat / 4096 = f.toNat ∧ (f ++ x ++ y ++ n : Word).toNat % 16 = n.toNat ∧
    (f ++ x ++ y ++ n : Word).toNat % 256 = (y ++ n : Byte).toNat := by
  rw [four_nibbles_toNat, two_nibbles_toNat]
  omega

/-- Settles O3, by the four nibbles of the word and what each family rejects. -/
theorem illegalWordsAreTheListedOnes : Obligations.IllegalWordsAreTheListedOnes := by
  intro w
  change (decodeNibbles (nibbleAt w 12) (nibbleAt w 8) (nibbleAt w 4) (nibbleAt w 0)).Rejected ↔ _
  obtain ⟨hf, hn, hkk⟩ := word_fields_toNat (nibbleAt w 12) (nibbleAt w 8) (nibbleAt w 4) (nibbleAt w 0)
  rw [word_of_nibbles] at hf hn hkk
  rw [hf, hn, hkk]
  generalize nibbleAt w 12 = f, nibbleAt w 8 = x, nibbleAt w 4 = y, nibbleAt w 0 = n
  rcases nibble_cases f with rfl | rfl | rfl | rfl | rfl | rfl | rfl | rfl | rfl | rfl | rfl | rfl | rfl | rfl | rfl | rfl <;>
    simp [decodeNibbles, rejected_low_nibble_zero_iff, decodeFamily0_not_rejected, decodeFamily8_rejected_iff,
      decodeFamilyE_rejected_iff, decodeFamilyF_rejected_iff]

/-! ### Selectors and fixed words -/

/-- Settles O4: the defined selectors by the words of their instructions, the others by what the family rejects. -/
theorem familiesEightAndFSelectors : Obligations.FamiliesEightAndFSelectors := by
  refine ⟨fun x y => ?_, fun x => ?_⟩
  · refine ⟨decodeWord_encode (.ldReg x y) rfl, decodeWord_encode (.orReg x y) rfl, decodeWord_encode (.andReg x y) rfl,
      decodeWord_encode (.xorReg x y) rfl, decodeWord_encode (.addReg x y) rfl, decodeWord_encode (.subReg x y) rfl,
      decodeWord_encode (.shr x y) rfl, decodeWord_encode (.subnReg x y) rfl, decodeWord_encode (.shl x y) rfl,
      fun n hn => ?_⟩
    rw [decodeWord_family8]
    exact (decodeFamily8_rejected_iff x y n).mpr hn
  · refine ⟨decodeWord_encode (.ldVxDT x) rfl, decodeWord_encode (.ldVxK x) rfl, decodeWord_encode (.ldDTVx x) rfl,
      decodeWord_encode (.ldSTVx x) rfl, decodeWord_encode (.addI x) rfl, decodeWord_encode (.ldF x) rfl,
      decodeWord_encode (.ldB x) rfl, decodeWord_encode (.ldMemVx x) rfl, decodeWord_encode (.ldVxMem x) rfl,
      fun kk hkk => ?_⟩
    rw [decodeWord_familyF]
    exact (decodeFamilyF_rejected_iff x kk).mpr hkk

/-- Settles O5: each word is the one that `encode` gives its instruction. -/
theorem specWordsDecode : Obligations.SpecWordsDecode :=
  ⟨decodeWord_encode (.ldImm 0 5) rfl, decodeWord_encode (.ldImm 1 3) rfl, decodeWord_encode (.addReg 0 1) rfl,
    decodeWord_encode .cls rfl, decodeWord_encode .ret rfl, decodeWord_encode (.sys 0x1E0) rfl,
    decodeWord_encode (.seReg 1 2) rfl, decodeWord_encode (.skp 3) rfl, decodeWord_encode (.ldVxK 3) rfl,
    decodeWord_encode (.drw 0 1 5) rfl⟩

end Sys2Proof
end

section
/-! The cycle (40_cycle.md R69 to R78): what a step of a running machine answers, phase by phase, and that a fault is
precise. -/

namespace Sys2Proof.Machine

/-! ### The phases of a cycle -/

/-- Phase 1 above memory (R71). -/
theorem State.cycle_of_fetch_none {s : State} (hf : s.fetch = none) :
    s.cycle = .next (s.raise .addressOutOfRange none) := by
  simp [State.cycle, hf]

/-- Phase 3 on an illegal word (R73). -/
theorem State.cycle_of_reject {s : State} {op : Word} {why : DecodeReject} (hf : s.fetch = some op)
    (hd : decodeWord op = .reject why) : s.cycle = .next (s.raise .decodeError (some op)) := by
  simp [State.cycle, hf, hd]

/-- Phases 4 to 6 on a legal word (R74 to R78). -/
theorem step_of_exec {s t : State} {op : Word} {i : Instr} (hr : s.run = .running) (hs : s.hostScript = [])
    (hf : s.fetch = some op) (hd : decodeWord op = .ok i) (he : exec i s = .next t) :
    step s = .next t.closeCycle :=
  (step_eq_cycle hr hs).trans (State.cycle_of_exec hf hd he)

theorem State.closeCycle_of_running {t : State} (h : t.run = .running) : t.closeCycle = t.finishCycle := if_pos h

theorem State.closeCycle_of_not_running {t : State} (h : t.run ≠ .running) : t.closeCycle = t := if_neg h

/-- Two bytes decode to the instruction of their word (20_memory.md R43, 30_encoding.md R55). -/
theorem decodeWord_of_decodeBytes {hi lo : Byte} {i : Instr} {rest rest' : List Byte}
    (h : decodeBytes (hi :: lo :: rest) = .ok i rest') : decodeWord (wordOfBytes hi lo) = .ok i := by
  rw [decodeBytes] at h
  cases hd : decodeWord (wordOfBytes hi lo) with
  | ok j => rw [hd] at h; cases h; rfl
  | reject why => rw [hd] at h; cases h

/-! ### The run state after an instruction -/

theorem Frame.run {w : List Part} {s t : State} (h : Frame w s t) (hw : Part.run ∉ w) : t.run = s.run := by
  obtain ⟨-, -, -, -, -, -, -, -, -, hrun, -⟩ := h
  exact hrun hw

/-- Fx0A alone has RUN among its parts. -/
theorem eq_ldVxK_of_run_mem {i : Instr} (h : Part.run ∈ partsWritten i) : ∃ x, i = .ldVxK x := by
  cases i <;> simp [partsWritten] at h ⊢

/-- An instruction that raises no fault leaves RUN as it was, but for the wait of Fx0A (45_keypad_timers.md R123). -/
theorem exec_run_of_faultOf_none {i : Instr} {s t : State} (hn : faultOf i s = none) (ht : exec i s = .next t) :
    t.run = s.run ∨ ∃ x, i = .ldVxK x ∧ t.run = .waitKey x := by
  by_cases hw : Part.run ∈ partsWritten i
  · obtain ⟨x, rfl⟩ := eq_ldVxK_of_run_mem hw
    cases ht
    exact .inr ⟨x, rfl, rfl⟩
  · obtain ⟨-, hframe, -⟩ | ⟨cause, hc, -⟩ := instructionsWriteOnlyTheirParts i s t ht
    · exact .inl (hframe.run hw)
    · cases hn.symm.trans hc

/-- An instruction that moves RUN to Faulted has raised its one fault (60_exceptions.md R134). -/
theorem exec_raised_of_faulted {i : Instr} {s t : State} (hr : s.run ≠ .faulted) (ht : exec i s = .next t)
    (hf : t.run = .faulted) : ∃ cause, faultOf i s = some cause ∧ Raised s cause i t := by
  obtain ⟨hn, -⟩ | hraised := instructionsWriteOnlyTheirParts i s t ht
  · obtain hrun | ⟨x, -, hrun⟩ := exec_run_of_faultOf_none hn ht
    · exact absurd (hrun.symm.trans hf) hr
    · cases hrun.symm.trans hf
  · exact hraised

/-! ### The claims -/

/-- Settles O14, by the three ways a cycle can end. -/
theorem faultsArePrecise : Obligations.FaultsArePrecise := by
  intro s t hr hs ht hfaulted
  rw [step_eq_cycle hr hs] at ht
  obtain rfl | ⟨op, rfl⟩ | ⟨op, i, u, -, -, he, rfl⟩ := State.cycle_cases ht
  · exact ⟨_, _, rfl⟩
  · exact ⟨_, _, rfl⟩
  · obtain ⟨hu, hclose⟩ := State.closeCycle_of_faulted hfaulted
    obtain ⟨cause, -, hraised⟩ := exec_raised_of_faulted (by simp [hr]) he hu
    exact ⟨cause, _, hclose.trans hraised⟩

/-- Settles O9: the word fetched is the one the two bytes make. -/
theorem stepRunsTheDecodedInstruction : Obligations.StepRunsTheDecodedInstruction :=
  fun _ _ _ _ _ hr hs hhi hlo hd he =>
    step_of_exec hr hs (State.memReadWord_of_memRead hhi hlo) (decodeWord_of_decodeBytes hd) he

/-- Settles O11, by the first phase alone. -/
theorem fetchAboveMemoryFaults : Obligations.FetchAboveMemoryFaults := fun _ hr hs hpc =>
  (step_eq_cycle hr hs).trans (State.cycle_of_fetch_none (State.memReadWord_eq_none.mpr hpc))

/-- Settles O12, by the decode phase. -/
theorem illegalWordFaults : Obligations.IllegalWordFaults := fun _ _ _ hr hs hf hd =>
  (step_eq_cycle hr hs).trans (State.cycle_of_reject hf hd)

/-- Settles O13, by the end of the cycle after an instruction that completed and after one that did not. -/
theorem completedCycleStepsTimersAndPublishes : Obligations.CompletedCycleStepsTimersAndPublishes := by
  intro s u op i hr hs hf hd he
  refine ⟨u.closeCycle, step_of_exec hr hs hf hd he, fun hu => ?_, State.closeCycle_of_not_running⟩
  have hframe := u.frame_closeCycle
  rw [State.closeCycle_of_running hu] at hframe ⊢
  exact ⟨countdown_toNat u.dt, countdown_toNat u.st, rfl, rfl, hframe⟩

/-- Settles O16: the host's event is a tick, which starts no cycle. -/
theorem noCycleUnlessRunning : Obligations.NoCycleUnlessRunning := fun _ hr hs =>
  (step_eq_tick hs).trans (if_neg hr)

end Sys2Proof.Machine
end

section
/-! Control transfer (41_control_flow.md): RET, the jumps, CALL and its RET, and the skips on registers. -/

namespace Sys2Proof.Machine

/-! ### The answer of an instruction, its fault condition known -/

/-- An answer where the instruction has no fault is its effect by the rules. -/
theorem effectAsRuled_of_exec {i : Instr} {s t : State} (hf : faultOf i s = none) (ht : exec i s = .next t) :
    EffectAsRuled i s t := by
  obtain ⟨u, hu, heffect, -⟩ := exec_answersAsRuled i s
  cases ht.symm.trans hu
  exact heffect hf

theorem exec_of_faultOf_none {i : Instr} {s : State} (hf : faultOf i s = none) :
    ∃ t, exec i s = .next t ∧ NextPc i s t.pc ∧ Frame (partsWritten i) s t := by
  obtain ⟨t, ht, heffect, -⟩ := everyInstructionAnswersANextState i s
  exact ⟨t, ht, heffect hf⟩

theorem exec_of_faultOf_some {i : Instr} {s : State} {c : Fault} (hf : faultOf i s = some c) :
    ∃ t, exec i s = .next t ∧ Raised s c i t := by
  obtain ⟨t, ht, -, hfault⟩ := everyInstructionAnswersANextState i s
  exact ⟨t, ht, hfault c hf⟩

/-! ### RET -/

/-- RET on a stack that is not empty: PC is the slot below SP, and SP is one lower (R82). -/
theorem exec_ret_of_pos {s : State} (hsp : 0 < s.sp.val) :
    exec .ret s = .next { s with
      pc := s.stack[s.sp.val - 1]'(by have := s.sp.isLt; omega)
      sp := ⟨s.sp.val - 1, by have := s.sp.isLt; omega⟩ } := by
  have hpop : s.advance.pop = some _ := State.pop_eq_some.mpr ⟨hsp, rfl, rfl⟩
  exact congrArg (fun p => s.orRaise .ret .stackUnderflow (p.map fun q => q.2.setPc q.1)) hpop

/-- Settles O17: with no fault, SP beside the parts that the rules name; with SP = 0, the fault condition is met. -/
theorem returnPopsOrUnderflows : Obligations.ReturnPopsOrUnderflows := by
  refine fun s => ⟨fun hsp => ?_, fun hsp => exec_of_faultOf_some (if_pos hsp)⟩
  have hret := exec_ret_of_pos hsp
  have hnone : faultOf .ret s = none := if_neg (Fin.pos_iff_ne_zero.mp hsp)
  obtain ⟨-, hframe, -⟩ := effectAsRuled_of_exec hnone hret
  exact ⟨_, hret, rfl, rfl, hframe⟩

/-! ### JP and SYS -/

/-- A jump sets PC and does nothing else: the target overwrites the advanced PC (R84). -/
theorem exec_jp (nnn : Addr12) (s : State) : exec (.jp nnn) s = .next (s.setPc (addrWord nnn)) := rfl

theorem State.setPc_self (s : State) : s.setPc s.pc = s := rfl

/-- Settles O18: the two corners are the fetch above 0xFFE and the PC that is written over itself. -/
theorem jumpLoadsTheAddress : Obligations.JumpLoadsTheAddress := by
  intro nnn s
  obtain ⟨hpc, hframe, -⟩ := effectAsRuled_of_exec rfl (exec_jp nnn s)
  refine ⟨decodeWord_encode (.jp nnn) rfl, _, exec_jp nnn s, hpc, hframe, ?_, fun hself => ?_⟩
  · rintro rfl
    have habove : 0xFFE < (addrWord 0xFFF).toNat := by decide
    exact State.memReadWord_eq_none.mpr habove
  · have htarget : addrWord nnn = s.pc := BitVec.eq_of_toNat_eq ((addrWord_toNat nnn).trans hself)
    rw [htarget, State.setPc_self]

/-- Settles O19: SYS is what family 0 leaves over; it has no fault, and PC alone is among its parts. -/
theorem sysIsAPlainJump : Obligations.SysIsAPlainJump := by
  refine fun nnn s => ⟨fun hcls hret => ?_, exec_of_faultOf_none (i := .sys nnn) rfl⟩
  exact decodeWord_encode (.sys nnn) (by simpa [WellFormed, Instr.wf] using ⟨hcls, hret⟩)

/-! ### CALL and JP V0 -/

/-- The two answers of an instruction that pushes the advanced PC and jumps, StackOverflow its one fault (R85, R86). -/
theorem exec_pushAndJump {i : Instr} {s : State} {target : Word}
    (he : exec i s = s.orRaise i .stackOverflow ((s.advance.push s.advance.pc).map fun u => u.setPc target))
    (hf : faultOf i s = if s.sp = 16 then some .stackOverflow else none) :
    (∀ h : s.sp.val < 16, ∃ t, exec i s = .next t ∧ NextPc i s t.pc ∧ t.stack[s.sp.val] = s.pc + 2 ∧
      t.sp.val = s.sp.val + 1 ∧ (∀ k : Fin 16, k.val ≠ s.sp.val → t.stack[k] = s.stack[k]) ∧
      Frame (partsWritten i) s t) ∧
    (s.sp = 16 → ∃ t, exec i s = .next t ∧ Raised s .stackOverflow i t) := by
  refine ⟨fun hsp => ?_, fun hsp => exec_of_faultOf_some (hf.trans (if_pos hsp))⟩
  have hnone : faultOf i s = none := hf.trans (if_neg fun hfull => hsp.ne (congrArg Fin.val hfull))
  have hpush : s.advance.push s.advance.pc = some _ := State.push_eq_some.mpr ⟨hsp, rfl⟩
  rw [hpush] at he
  obtain ⟨hpc, hframe, -, hslots, -⟩ := effectAsRuled_of_exec hnone he
  exact ⟨_, he, hpc, by simp, rfl, hslots, hframe⟩

/-- Settles O20: CALL pushes and jumps to nnn. -/
theorem callPushesAndJumps : Obligations.CallPushesAndJumps :=
  fun nnn _ => exec_pushAndJump (i := .call nnn) rfl rfl

/-- Settles O21: JP V0 pushes and jumps to nnn + V[0]. -/
theorem jumpV0PushesAndAdds : Obligations.JumpV0PushesAndAdds :=
  fun nnn _ => exec_pushAndJump (i := .jpV0 nnn) rfl rfl

theorem Frame.stack {w : List Part} {s t : State} (h : Frame w s t) (hw : Part.stack ∉ w) : t.stack = s.stack := by
  obtain ⟨-, -, -, -, -, -, hstack, -⟩ := h
  exact hstack hw

/-- Settles O22: the slot that RET pops is the one CALL pushed, and the slots below it are those that CALL kept. -/
theorem callThenReturnComesBack : Obligations.CallThenReturnComesBack := by
  intro nnn s m hsp hm
  obtain ⟨t, ht, -, hslot, hcount, hslots, -⟩ := (callPushesAndJumps nnn s).1 hsp
  obtain ⟨hstack, hmsp⟩ := hm t ht
  have hmcount : m.sp.val = s.sp.val + 1 := (congrArg Fin.val hmsp).trans hcount
  obtain ⟨u, hu, hupc, husp, hframe⟩ := (returnPopsOrUnderflows m).1 (by omega)
  have hustack : u.stack = t.stack := (hframe.stack (by decide)).trans hstack
  refine ⟨u, hu, ?_, ⟨Fin.ext (by omega), fun k hk => ?_⟩, hframe⟩
  · simpa [hupc, hstack, hmcount] using hslot
  · rw [hustack, hslots k hk.ne]

/-! ### The skips on registers -/

/-- Settles O23: no skip on registers has a fault, and PC goes where its rule says. -/
theorem skipsCompareRegisters : Obligations.SkipsCompareRegisters := fun x y kk _ =>
  ⟨decodeWord_encode (.seImm x kk) rfl, decodeWord_encode (.sneImm x kk) rfl,
    exec_of_faultOf_none (i := .seImm x kk) rfl, exec_of_faultOf_none (i := .sneImm x kk) rfl,
    exec_of_faultOf_none (i := .seReg x y) rfl, exec_of_faultOf_none (i := .sneReg x y) rfl⟩

end Sys2Proof.Machine
end

section
/-! Register loads and arithmetic (42_load_alu.md): one register written, a result and then the flag, or the flag and then
the shift (R105). -/

namespace Sys2Proof.Machine

/-! ### Instructions that write one register -/

/-- PC is advanced, V[x] is written, VF too if x = 15, and nothing else (R93 to R98). -/
theorem exec_setV {i : Instr} {s : State} {x : Reg} {b : Byte} (he : exec i s = .next (s.advance.setV x b)) :
    ∃ t, exec i s = .next t ∧ t.pc = s.pc + 2 ∧ (∀ r, t.getV r = if r = x then b else s.getV r) ∧ Frame [.pc, .v] s t :=
  ⟨_, he, rfl, fun _ => State.getV_setV .., by simp [Frame]⟩

/-- Settles O24: a row of family 6, and a write of one register. -/
theorem loadImmediateWritesOneRegister : Obligations.LoadImmediateWritesOneRegister :=
  fun x kk _ => ⟨decodeWord_encode (.ldImm x kk) rfl, exec_setV rfl⟩

/-- Settles O25: the one register written receives the 8-bit sum. -/
theorem addImmediateWraps : Obligations.AddImmediateWraps := by
  intro x kk s
  obtain ⟨t, ht, hpc, hv, hframe⟩ := exec_setV (i := .addImm x kk) (s := s) rfl
  refine ⟨t, ht, hpc, ?_, fun r hr => by rw [hv, if_neg hr], hframe⟩
  rw [hv, if_pos rfl, BitVec.toNat_add]

/-- A write of one register whose byte is known bit by bit. -/
theorem exec_setV_bits {i : Instr} {s : State} {x : Reg} {b : Byte} {bit : Nat → Bool}
    (he : exec i s = .next (s.advance.setV x b)) (hb : ∀ j, b.getLsbD j = bit j) :
    ∃ t, exec i s = .next t ∧ t.pc = s.pc + 2 ∧ (∀ r, r ≠ x → t.getV r = s.getV r) ∧ Frame [.pc, .v] s t ∧
      ∀ j, (t.getV x).getLsbD j = bit j := by
  obtain ⟨t, ht, hpc, hv, hframe⟩ := exec_setV he
  refine ⟨t, ht, hpc, fun r hr => by rw [hv, if_neg hr], hframe, fun j => ?_⟩
  rw [hv, if_pos rfl, hb]

/-- Settles O26: the copy is the byte of V[y], the other three are known by their bits. -/
theorem copyAndLogicActBitwise : Obligations.CopyAndLogicActBitwise := fun _ _ _ =>
  ⟨exec_setV rfl, exec_setV_bits rfl fun _ => BitVec.getLsbD_or, exec_setV_bits rfl fun _ => BitVec.getLsbD_and,
    exec_setV_bits rfl fun _ => BitVec.getLsbD_xor⟩

/-! ### A result, then the flag -/

theorem carryFlag_eq (a b : Byte) : carryFlag a b = if 255 < a.toNat + b.toNat then 1 else 0 := by
  simp [carryFlag, flagByte]

theorem notBorrowFlag_eq (a b : Byte) : notBorrowFlag a b = if b.toNat ≤ a.toNat then 1 else 0 := by
  simp [notBorrowFlag, flagByte]

/-- The difference of two bytes modulo 256 (R92), the 256 added before the subtraction. -/
theorem toNat_sub_byte (a b : Byte) : (a - b).toNat = (a.toNat + 256 - b.toNat) % 256 := by
  rw [BitVec.toNat_sub]; omega

/-- The flag is written second, so with x = 15 it is what stays (R105). -/
theorem exec_resultThenFlag {i : Instr} {s : State} {x : Reg} {b flag flag' : Byte} {n : Nat}
    (he : exec i s = .next ((s.advance.setV x b).setV VF flag)) (hflag : flag = flag') (hb : b.toNat = n) :
    ∃ t, exec i s = .next t ∧ t.pc = s.pc + 2 ∧ t.getV VF = flag' ∧ (x ≠ VF → (t.getV x).toNat = n) ∧
      (∀ r, r ≠ x → r ≠ VF → t.getV r = s.getV r) ∧ Frame [.pc, .v] s t := by
  refine ⟨_, he, rfl, ?_, fun hx => ?_, fun r hr hrf => ?_, by simp [Frame]⟩
  · rw [State.getV_setV, if_pos rfl, hflag]
  · rw [State.getV_setV, if_neg hx, State.getV_setV, if_pos rfl, hb]
  · rw [State.getV_setV, if_neg hrf, State.getV_setV, if_neg hr, State.getV_advance]

/-- Settles O27: the sum, then its carry. -/
theorem addSetsCarry : Obligations.AddSetsCarry := fun _ _ _ =>
  exec_resultThenFlag rfl (carryFlag_eq _ _) (BitVec.toNat_add _ _)

/-- Settles O28: the difference, then its NOT borrow; SUBN is SUB with the operands exchanged. -/
theorem subtractionsSetNotBorrow : Obligations.SubtractionsSetNotBorrow := fun _ _ _ =>
  ⟨exec_resultThenFlag rfl (notBorrowFlag_eq _ _) (toNat_sub_byte _ _),
    exec_resultThenFlag rfl (notBorrowFlag_eq _ _) (toNat_sub_byte _ _)⟩

/-! ### The flag, then the shift -/

/-- The registers after the shared order of the two shifts: V[x] as it is read after the flag has been written. -/
theorem State.getV_flagThenShift (s : State) (x : Reg) (flag : Byte) (shift : Byte → Byte) (r : Reg) :
    (s.flagThenShift x flag shift).getV r =
      if r = x then shift (if x = VF then flag else s.getV x) else if r = VF then flag else s.getV r := by
  simp only [State.flagThenShift, State.getV_setV]

/-- The flag is written first and V[x] is read again, so with x = 15 it is the flag that is shifted (R105). -/
theorem exec_flagThenShift {i : Instr} {s : State} {x : Reg} {flag : Byte} {shift : Byte → Byte}
    (he : exec i s = .next (s.advance.flagThenShift x flag shift)) :
    ∃ t, exec i s = .next t ∧ t.pc = s.pc + 2 ∧ (x ≠ VF → t.getV x = shift (s.getV x) ∧ t.getV VF = flag) ∧
      (x = VF → t.getV VF = shift flag) ∧ (∀ r, r ≠ x → r ≠ VF → t.getV r = s.getV r) ∧ Frame [.pc, .v] s t := by
  refine ⟨_, he, rfl, fun hx => ⟨?_, ?_⟩, fun hx => ?_, fun r hr hrf => ?_, by simp [Frame, State.flagThenShift]⟩
  · rw [State.getV_flagThenShift, if_pos rfl, if_neg hx, State.getV_advance]
  · rw [State.getV_flagThenShift, if_neg hx.symm, if_pos rfl]
  · rw [State.getV_flagThenShift, if_pos hx.symm, if_pos hx]
  · rw [State.getV_flagThenShift, if_neg hr, if_neg hrf, State.getV_advance]

/-- Settles O29: with x = 15 SHR shifts out the flag it has just written, and SHL doubles it. -/
theorem shiftsInPlace : Obligations.ShiftsInPlace := by
  intro x y s
  constructor
  · obtain ⟨t, ht, hpc, hother, hvf, hkept, hframe⟩ := exec_flagThenShift (i := .shr x y) (s := s) rfl
    refine ⟨t, ht, hpc, fun hx => ?_, fun hx => ?_, hkept, hframe⟩
    · obtain ⟨hval, hflag⟩ := hother hx
      rw [hval, hflag, lowBit_toNat, BitVec.toNat_ushiftRight, Nat.shiftRight_one]
      exact ⟨rfl, rfl⟩
    · apply BitVec.eq_of_toNat_eq
      rw [hvf hx, BitVec.toNat_ushiftRight, lowBit_toNat, Nat.shiftRight_one]
      exact Nat.div_eq_of_lt (Nat.mod_lt _ Nat.two_pos)
  · obtain ⟨t, ht, hpc, hother, hvf, hkept, hframe⟩ := exec_flagThenShift (i := .shl x y) (s := s) rfl
    refine ⟨t, ht, hpc, fun hx => ?_, fun hx => ?_, hkept, hframe⟩
    · obtain ⟨hval, hflag⟩ := hother hx
      rw [hval, hflag, highBit_toNat, BitVec.toNat_shiftLeft, Nat.shiftLeft_eq, pow_one, Nat.mul_comm]
      exact ⟨rfl, rfl⟩
    · rw [hvf hx, BitVec.toNat_shiftLeft, highBit_toNat, Nat.shiftLeft_eq, pow_one, Nat.mul_comm]
      exact Nat.mod_eq_of_lt (by have := (s.getV x).isLt; omega)

/-! ### The random byte -/

/-- One byte is drawn, and V[x] is written with its bits inside kk (R104). -/
theorem exec_rnd (x : Reg) (kk : Byte) (s : State) :
    ∃ t, exec (.rnd x kk) s = .next t ∧ t.pc = s.pc + 2 ∧
      (∀ r, t.getV r = if r = x then Config.randomByte s.draws &&& kk else s.getV r) ∧ t.draws = s.draws + 1 ∧
      Frame [.pc, .v, .draws] s t :=
  ⟨_, rfl, rfl, fun _ => State.getV_setV .., rfl, by simp [Frame, State.rand, State.memRead]⟩

/-- Settles O30: the mask holds of every byte, so of the one drawn. -/
theorem randomByteIsMasked : Obligations.RandomByteIsMasked := by
  intro x kk s
  obtain ⟨t, ht, hpc, hv, hdraws, hframe⟩ := exec_rnd x kk s
  have hx : t.getV x = Config.randomByte s.draws &&& kk := by rw [hv, if_pos rfl]
  refine ⟨t, ht, hpc, hx, ?_, ?_, hdraws, fun r hr => by rw [hv, if_neg hr], hframe⟩
  · rw [hx, BitVec.and_assoc, BitVec.and_not_self]
    exact BitVec.and_zero
  · rw [hx, BitVec.toNat_and]
    exact Nat.and_le_right

end Sys2Proof.Machine
end

section
/-! Index register and memory (43_index_memory.md): I written by LD I, ADD I and LD F, the stores and the load from the
address in I, and the store that a load undoes (R113). -/

namespace Sys2Proof.Machine

/-! ### LD I, LD F and ADD I -/

/-- The glyph address is 5 times the byte with nothing cut off (R109). -/
theorem glyphAddr_toNat (v : Byte) : (glyphAddr v).toNat = 5 * v.toNat := by
  have := v.isLt
  rw [glyphAddr, BitVec.toNat_ofNat, Nat.mod_eq_of_lt (by omega)]

theorem indexSum_toNat (i : Word) (v : Byte) : (indexSum i v).toNat = (i.toNat + v.toNat) % 4096 := by
  rw [indexSum, BitVec.toNat_ofNat, Nat.mod_eq_of_lt (by omega)]

theorem indexOverflowFlag_eq (i : Word) (v : Byte) :
    indexOverflowFlag i v = if 0xFFF < i.toNat + v.toNat then 1 else 0 := by
  simp [indexOverflowFlag, flagByte]

/-- PC is advanced, I is written, and nothing else (R107, R109). -/
theorem exec_setI {i : Instr} {s : State} {w : Word} {n : Nat} (he : exec i s = .next (s.advance.setI w))
    (hw : w.toNat = n) : ∃ t, exec i s = .next t ∧ t.pc = s.pc + 2 ∧ t.i.toNat = n ∧ Frame [.pc, .i] s t :=
  ⟨_, he, rfl, hw, by simp [Frame]⟩

/-- Settles O31: a row of family A, and a write of I alone. -/
theorem loadIndexTakesTheAddress : Obligations.LoadIndexTakesTheAddress :=
  fun nnn _ => ⟨decodeWord_encode (.ldI nnn) rfl, exec_setI rfl (addrWord_toNat nnn)⟩

/-- Settles O33: a write of I alone. -/
theorem loadGlyphAddress : Obligations.LoadGlyphAddress := fun _ _ => exec_setI rfl (glyphAddr_toNat _)

/-- Settles O32: I receives the wrapped sum, and VF alone of the registers the overflow. -/
theorem addToIndexWrapsAndFlags : Obligations.AddToIndexWrapsAndFlags := by
  intro x s
  refine ⟨_, rfl, rfl, indexSum_toNat _ _, ?_, fun r hr => ?_, by simp [Frame]⟩
  · rw [State.getV_setV, if_pos rfl, indexOverflowFlag_eq]
  · rw [State.getV_setV, if_neg hr, State.getV_setI, State.getV_advance]

/-! ### The stores from I on -/

/-- A byte of a store that lies in memory is read back. -/
theorem State.memRead_store_inside {s : State} {a k : Nat} {bs : List Byte} (hr : a + bs.length - 1 ≤ 0xFFF)
    (hk : k < bs.length) : State.memRead { s with mem := s.mem.writeBytes a bs } (a + k) = some bs[k] := by
  rw [State.memRead_store, if_neg (by omega), dif_pos (by omega)]
  simp

/-- LD B, Vx inside memory: PC advances and the digits are stored (R110). -/
theorem exec_ldB_inside {x : Reg} {s : State} (hr : s.base + 2 ≤ 0xFFF) :
    exec (.ldB x) s = .next { s.advance with mem := s.mem.writeBytes s.base (bcdDigits (s.getV x)) } :=
  congrArg (s.orRaise (.ldB x) .addressOutOfRange) (State.storeBytes_inside hr)

/-- Settles O34: the digits are read back in their order; the rest is what the rules say of LD B. -/
theorem storeDecimalDigits : Obligations.StoreDecimalDigits := by
  refine fun x s => ⟨fun hr => ?_, fun hr => exec_of_faultOf_some (if_pos hr)⟩
  have hexec := exec_ldB_inside (x := x) hr
  have hnone : faultOf (.ldB x) s = none := if_neg hr.not_gt
  obtain ⟨hpc, hframe, -, -, hmem⟩ := effectAsRuled_of_exec hnone hexec
  have hdigit {k : Nat} (hk : k < 3) := State.memRead_store_inside (s := s.advance) (bs := bcdDigits (s.getV x)) hr hk
  exact ⟨_, hexec, hpc, hdigit (k := 0) (by decide), hdigit (k := 1) (by decide), hdigit (k := 2) (by decide),
    hmem, hframe⟩

/-- Settles O35: the registers are read back; the rest is what the rules say of LD [I]. -/
theorem storeRegistersFromI : Obligations.StoreRegistersFromI := by
  refine fun x s => ⟨fun hr => ?_, fun hr => exec_of_faultOf_some (if_pos hr)⟩
  have hexec := exec_ldMemVx_inside hr
  have hnone : faultOf (.ldMemVx x) s = none := if_neg hr.not_gt
  obtain ⟨hpc, hframe, -, -, hmem⟩ := effectAsRuled_of_exec hnone hexec
  exact ⟨_, hexec, hpc, fun _ => memRead_of_exec_ldMemVx hr hexec, hmem, hframe⟩

/-! ### The load from I on -/

/-- LD Vx, [I] inside memory: PC advances and the registers are loaded (R112). -/
theorem exec_ldVxMem_inside {x : Reg} {s : State} (hr : s.base + x.toNat ≤ 0xFFF) :
    exec (.ldVxMem x) s = .next (s.advance.setRegs 0 (s.mem.readBytes s.base (x.toNat + 1))) := by
  have hload : s.loadBytes s.base (x.toNat + 1) = some _ :=
    State.loadBytes_eq_some.mpr ⟨Memory.rangeOk_iff.mpr (.inr hr), rfl⟩
  exact congrArg (fun o => s.orRaise (.ldVxMem x) .addressOutOfRange (o.map (s.advance.setRegs 0))) hload

/-- The byte r past the address in I is then what V[r] holds. -/
theorem memRead_eq_getV_of_exec_ldVxMem {x r : Reg} {s t : State} (hr : s.base + x.toNat ≤ 0xFFF)
    (ht : exec (.ldVxMem x) s = .next t) (hrx : r.toNat ≤ x.toNat) : s.memRead (s.base + r.toNat) = some (t.getV r) := by
  cases (exec_ldVxMem_inside hr).symm.trans ht
  have hx := x.isLt
  have hlen := s.mem.length_readBytes s.base (x.toNat + 1)
  refine State.memRead_eq_some.mpr ⟨by omega, ?_⟩
  rw [State.getV_setRegs _ _ _ (by omega), dif_pos (by omega), Memory.getElem_readBytes, Nat.sub_zero]

/-- Settles O36: the loaded registers hold the bytes; the rest is what the rules say of LD Vx, [I]. -/
theorem loadRegistersFromI : Obligations.LoadRegistersFromI := by
  refine fun x s => ⟨fun hr => ?_, fun hr => exec_of_faultOf_some (if_pos hr)⟩
  have hexec := exec_ldVxMem_inside hr
  have hnone : faultOf (.ldVxMem x) s = none := if_neg hr.not_gt
  obtain ⟨hpc, hframe, hkept, -⟩ := effectAsRuled_of_exec hnone hexec
  exact ⟨_, hexec, hpc, fun _ => memRead_eq_getV_of_exec_ldVxMem hr hexec,
    fun r hxr => hkept r (decide_eq_false hxr.not_ge), hframe⟩

/-! ### A store, then a load -/

theorem State.memRead_congr {s t : State} (h : t.mem = s.mem) (a : Nat) : t.memRead a = s.memRead a := by
  rw [State.memRead, State.memRead, h]

/-- Settles O37: at the same address, the byte that the store left is the byte that the load reads. -/
theorem storeThenLoadRestores : Obligations.StoreThenLoadRestores := by
  intro x s t m hr ht hmem hi
  have hbase : m.base = s.base := congrArg BitVec.toNat hi
  obtain ⟨u, hu, -, hloaded, -⟩ := (loadRegistersFromI x m).1 (hbase ▸ hr)
  refine ⟨u, hu, fun r hrx => Option.some.inj ?_⟩
  calc some (u.getV r)
    _ = m.memRead (m.base + r.toNat) := (hloaded r hrx).symm
    _ = t.memRead (s.base + r.toNat) := by rw [hbase, State.memRead_congr hmem]
    _ = some (s.getV r) := memRead_of_exec_ldMemVx hr ht hrx

end Sys2Proof.Machine
end

section
/-! Display (44_display.md): the two answers of DRW, what it does to every pixel, the screen that CLS leaves, and the draw
that a second draw undoes (R119). -/

namespace Sys2Proof.Machine

/-! ### DRW, its sprite in memory or not -/

theorem faultOf_drw_eq_none {x y : Reg} {n : Nibble} {s : State} (h : SpriteInMemory s n) :
    faultOf (.drw x y n) s = none := by
  refine if_neg fun ⟨hpos, habove⟩ => ?_
  obtain hzero | hle := h
  · exact hpos.ne' hzero
  · exact hle.not_gt habove

theorem faultOf_drw_of_not_spriteInMemory {x y : Reg} {n : Nibble} {s : State} (h : ¬SpriteInMemory s n) :
    faultOf (.drw x y n) s = some .addressOutOfRange := by
  obtain ⟨hne, habove⟩ := not_or.mp h
  exact if_pos ⟨Nat.pos_of_ne_zero hne, Nat.not_le.mp habove⟩

/-- The framebuffer after the sprite of DRW Vx, Vy, n in s, and whether the draw collides (R117). -/
def State.drawn (s : State) (x y : Reg) (n : Nibble) : FrameBuffer × Bool :=
  s.fb.drawSprite (s.getV x).toNat (s.getV y).toNat (s.mem.readBytes s.base n.toNat)

/-- DRW, its sprite in memory: PC advances, the sprite is drawn, and VF is the collision (R117). -/
theorem exec_drw_inside {x y : Reg} {n : Nibble} {s : State} (h : SpriteInMemory s n) :
    exec (.drw x y n) s =
      .next (State.setV { s.advance with fb := (s.drawn x y n).1 } VF (flagByte (s.drawn x y n).2)) := by
  have hload : s.loadBytes s.base n.toNat = some (s.mem.readBytes s.base n.toNat) :=
    State.loadBytes_eq_some.mpr ⟨Memory.rangeOk_iff.mpr h, rfl⟩
  show execDrw x y n s = _
  rw [execDrw, hload]
  rfl

/-- A sprite has at most 15 rows, so the law of a whole sprite speaks of every DRW (R117, R118). -/
theorem State.drawn_spec (s : State) (x y : Reg) (n : Nibble) :
    (∀ px py, (SpriteCovers s x y n px py → (s.drawn x y n).1.pixel px py = !s.fb.pixel px py) ∧
      (¬SpriteCovers s x y n px py → (s.drawn x y n).1.pixel px py = s.fb.pixel px py)) ∧
    ((s.drawn x y n).2 = true ↔ ∃ px py, SpriteCovers s x y n px py ∧ s.fb.pixel px py = true) := by
  have hrows : (s.mem.readBytes s.base n.toNat).length ≤ 32 := by
    rw [Memory.length_readBytes]; exact n.isLt.le.trans (by decide)
  simp only [spriteCovers_iff]
  exact s.fb.drawSprite_spec _ _ _ hrows

/-- VF after DRW, by the collision of the draw (R117). -/
theorem getV_VF_of_exec_drw {x y : Reg} {n : Nibble} {s t : State} (hs : SpriteInMemory s n)
    (ht : exec (.drw x y n) s = .next t) : t.getV VF = flagByte (s.drawn x y n).2 := by
  cases (exec_drw_inside hs).symm.trans ht
  rw [State.getV_setV, if_pos rfl]

theorem getV_VF_eq_one_iff_of_exec_drw {x y : Reg} {n : Nibble} {s t : State} (hs : SpriteInMemory s n)
    (ht : exec (.drw x y n) s = .next t) :
    t.getV VF = 1 ↔ ∃ px py, SpriteCovers s x y n px py ∧ s.fb.pixel px py = true := by
  rw [getV_VF_of_exec_drw hs ht, ← (s.drawn_spec x y n).2]
  simp [flagByte]

theorem getV_VF_eq_zero_iff_of_exec_drw {x y : Reg} {n : Nibble} {s t : State} (hs : SpriteInMemory s n)
    (ht : exec (.drw x y n) s = .next t) :
    t.getV VF = 0 ↔ ¬∃ px py, SpriteCovers s x y n px py ∧ s.fb.pixel px py = true := by
  rw [getV_VF_of_exec_drw hs ht, ← (s.drawn_spec x y n).2]
  simp [flagByte]

/-- Settles O40: the pixels and VF are those of the sprite drawn; the rest is what the rules say of DRW. -/
theorem drawXorsTheSprite : Obligations.DrawXorsTheSprite := by
  refine fun x y n s => ⟨fun hs => ?_, fun hs => exec_of_faultOf_some (faultOf_drw_of_not_spriteInMemory hs)⟩
  have hexec := exec_drw_inside (x := x) (y := y) hs
  obtain ⟨hpc, hframe, hkept, -⟩ := effectAsRuled_of_exec (faultOf_drw_eq_none hs) hexec
  obtain ⟨hpixel, -⟩ := s.drawn_spec x y n
  exact ⟨_, hexec, hpc, fun px py _ _ => hpixel px py, (getV_VF_eq_one_iff_of_exec_drw hs hexec).mpr,
    (getV_VF_eq_zero_iff_of_exec_drw hs hexec).mpr, fun r hr => hkept r (beq_false_of_ne hr), hframe⟩

/-! ### CLS -/

/-- Settles O39: a draw on the cleared screen meets no pixel that is set. -/
theorem clearScreenClearsEveryPixel : Obligations.ClearScreenClearsEveryPixel := by
  refine ⟨decodeWord_encode .cls rfl, fun s => ?_⟩
  have hexec : exec .cls s = .next { s.advance with fb := FrameBuffer.clear } := rfl
  obtain ⟨hpc, hframe, -⟩ := effectAsRuled_of_exec rfl hexec
  refine ⟨_, hexec, hpc, fun px py _ _ => FrameBuffer.pixel_clear px py, hframe, fun x y n hs => ?_⟩
  have hdraw := exec_drw_inside (x := x) (y := y) hs
  refine ⟨_, hdraw, (getV_VF_eq_zero_iff_of_exec_drw hs hdraw).mpr ?_⟩
  rintro ⟨px, py, -, hset⟩
  cases (FrameBuffer.pixel_clear px py).symm.trans hset

/-! ### The same sprite drawn twice -/

/-- A draw writes none of memory, I and the registers that place its sprite, when VF is not one of these: the sprite drawn
next lies where the first one did. -/
theorem sprite_of_exec_drw {x y : Reg} {n : Nibble} {s t : State} (hx : x ≠ VF) (hy : y ≠ VF)
    (hs : SpriteInMemory s n) (ht : exec (.drw x y n) s = .next t) :
    SpriteInMemory t n ∧ ∀ px py, SpriteCovers t x y n px py ↔ SpriteCovers s x y n px py := by
  cases (exec_drw_inside hs).symm.trans ht
  refine ⟨hs, fun px py => ?_⟩
  rw [SpriteCovers, State.getV_setV, if_neg hx, State.getV_setV, if_neg hy]
  rfl

/-- Settles O41: both draws cover the same pixels, so one is inverted twice, and is set between the draws exactly when it
was clear before. -/
theorem drawTwiceRestores : Obligations.DrawTwiceRestores := by
  intro x y n s t hx hy hs ht
  obtain ⟨hst, hcovers⟩ := sprite_of_exec_drw hx hy hs ht
  have hexec := exec_drw_inside (x := x) (y := y) hst
  have hfb : t.fb = (s.drawn x y n).1 := by cases (exec_drw_inside hs).symm.trans ht; rfl
  obtain ⟨hfirst, -⟩ := s.drawn_spec x y n
  obtain ⟨hsecond, -⟩ := t.drawn_spec x y n
  rw [← hfb] at hfirst
  simp only [hcovers] at hsecond
  refine ⟨_, hexec, FrameBuffer.ext_pixel fun px py _ _ => ?_, ?_⟩
  · by_cases hc : SpriteCovers s x y n px py
    · exact ((hsecond px py).1 hc).trans (by rw [(hfirst px py).1 hc, Bool.not_not])
    · exact ((hsecond px py).2 hc).trans ((hfirst px py).2 hc)
  · rw [getV_VF_eq_one_iff_of_exec_drw hst hexec]
    simp only [hcovers]
    constructor
    · rintro ⟨px, py, hc, hset⟩
      obtain ⟨hpx, hpy⟩ := spriteCovers_bound hc
      exact ⟨px, py, hpx, hpy, hset, by simpa [(hfirst px py).1 hc] using hset⟩
    · rintro ⟨px, py, -, -, hset, hclear⟩
      refine ⟨px, py, by_contra fun hc => ?_, hset⟩
      cases hset.symm.trans (((hfirst px py).2 hc).trans hclear)

end Sys2Proof.Machine
end

section
/-! Keypad and timers (45_keypad_timers.md): the skips on a key, the wait for a key from its issue to the press that
completes it, and the copies between the timers and the registers. -/

namespace Sys2Proof.Machine

/-! ### What a key event keeps -/

@[simp] theorem State.setKey_dt (s : State) (k : Nat) (b : Bool) : (s.setKey k b).dt = s.dt := by
  rw [State.setKey_eq]

@[simp] theorem State.setKey_st (s : State) (k : Nat) (b : Bool) : (s.setKey k b).st = s.st := by
  rw [State.setKey_eq]

@[simp] theorem State.setKey_snapshots (s : State) (k : Nat) (b : Bool) : (s.setKey k b).snapshots = s.snapshots := by
  rw [State.setKey_eq]

@[simp] theorem State.getV_setKey (s : State) (k : Nat) (b : Bool) (r : Reg) : (s.setKey k b).getV r = s.getV r := by
  rw [State.setKey_eq]; rfl

/-! ### The skips on a key -/

/-- Settles O42: a latch exists for the keys up to 15, where neither skip has its fault and PC goes where its rule says;
above 15 the fault condition of both is met. -/
theorem skipsTestTheKeyLatch : Obligations.SkipsTestTheKeyLatch := by
  refine fun x s => ⟨fun down hdown => ?_, fun hle => ⟨_, State.keyLatch_eq_some.mpr ⟨by omega, rfl⟩⟩, fun habove =>
    ⟨exec_of_faultOf_some (if_pos habove), exec_of_faultOf_some (if_pos habove)⟩⟩
  obtain ⟨hlt, -⟩ := State.keyLatch_eq_some.mp hdown
  have hin : ¬15 < (s.getV x).toNat := by omega
  obtain ⟨t, ht, htpc, htframe⟩ := exec_of_faultOf_none (i := .skp x) (if_neg hin)
  obtain ⟨u, hu, hupc, huframe⟩ := exec_of_faultOf_none (i := .sknp x) (if_neg hin)
  simp only [NextPc, hdown, Option.some.injEq] at htpc hupc
  exact ⟨⟨t, ht, htpc, htframe⟩, ⟨u, hu, hupc, huframe⟩⟩

/-! ### The wait for a key -/

/-- Settles O43: RUN is beside PC the one part that the rules name. -/
theorem keyWaitIsIssued : Obligations.KeyWaitIsIssued := by
  intro x s
  have hexec : exec (.ldVxK x) s = .next { s.advance with run := .waitKey x } := rfl
  obtain ⟨hpc, hframe, -⟩ := effectAsRuled_of_exec rfl hexec
  exact ⟨_, hexec, rfl, hpc, hframe⟩

theorem State.deliver_press_of_waitKey {s : State} {x : Reg} {k : Nat} (hr : s.run = .waitKey x) (hk : k ≤ 15) :
    s.deliver (.press k) = .next (s.completeWait x k) := by
  rw [State.deliver, State.hostPress, if_neg hk.not_gt, hr]

/-- The end of the cycle keeps the latch that the press has set (R124). -/
theorem State.keyLatch_completeWait (s : State) (x : Reg) {k : Nat} (hk : k ≤ 15) (j : Nat) :
    (s.completeWait x k).keyLatch j = if j = k then some true else s.keyLatch j :=
  s.keyLatch_setKey (Nat.lt_succ_of_le hk) true j

theorem State.getV_completeWait (s : State) (x : Reg) (k : Nat) (r : Reg) :
    (s.completeWait x k).getV r = if r = x then BitVec.ofNat 8 k else s.getV r := by
  rw [← s.getV_setKey k true r]
  exact State.getV_setV ..

theorem State.frame_completeWait (s : State) (x : Reg) (k : Nat) :
    Frame [.v, .dt, .st, .key, .run, .snapshot] s (s.completeWait x k) := by
  rw [State.completeWait, State.setKey_eq]
  simp [Frame, State.finishCycle, State.memRead]

/-- Settles O44: the press is the completion of the wait, whose timer step and snapshot are those that end a cycle. -/
theorem keyPressCompletesTheWait : Obligations.KeyPressCompletesTheWait := by
  intro x k s hr hk
  refine ⟨_, State.deliver_press_of_waitKey hr hk, rfl, s.keyLatch_completeWait x hk, ?_, fun r hrx => ?_, ?_, ?_, rfl, ?_,
    s.frame_completeWait x k⟩
  · rw [State.getV_completeWait, if_pos rfl, BitVec.toNat_ofNat, Nat.mod_eq_of_lt (by omega)]
  · rw [State.getV_completeWait, if_neg hrx]
  · exact (countdown_toNat _).trans (by simp)
  · exact (countdown_toNat _).trans (by simp)
  · simp [State.completeWait, State.finishCycle]

/-! ### The timers -/

/-- Settles O45: DT is copied by a write of one register, and each timer is written beside PC alone. -/
theorem timerCopies : Obligations.TimerCopies := by
  intro x s
  have hdt : exec (.ldDTVx x) s = .next (s.advance.setDT (s.getV x)) := rfl
  have hst : exec (.ldSTVx x) s = .next (s.advance.setST (s.getV x)) := rfl
  obtain ⟨t, ht, hpc, hv, hframe⟩ := exec_setV (i := .ldVxDT x) (s := s) rfl
  obtain ⟨hdtpc, hdtframe, -⟩ := effectAsRuled_of_exec rfl hdt
  obtain ⟨hstpc, hstframe, -⟩ := effectAsRuled_of_exec rfl hst
  exact ⟨⟨t, ht, hpc, by rw [hv, if_pos rfl], fun r hr => by rw [hv, if_neg hr], hframe⟩,
    ⟨_, hdt, hdtpc, rfl, hdtframe⟩, ⟨_, hst, hstpc, rfl, hstframe⟩⟩

end Sys2Proof.Machine
end

section
/-! Faults and host control (60_exceptions.md): which instruction raises which fault, what moves the run state, and the
host's start, stop, press and release. -/

namespace Sys2Proof.Machine

/-! ### The fault conditions -/

/-- The one fault of an instruction, raised: its condition held (R136). -/
theorem Raised.of_guard {p : Prop} [Decidable p] {s t : State} {i : Instr} {c cause : Fault}
    (hraised : Raised s cause i t) (hc : (if p then some c else none) = some cause) : p ∧ Raised s c i t := by
  obtain ⟨hp, hcause⟩ := Option.ite_none_right_eq_some.mp hc
  cases hcause
  exact ⟨hp, hraised⟩

/-- Settles O15: an instruction that ends Faulted has raised its one fault, so its condition held; the others have none. -/
theorem faultCausesByInstruction : Obligations.FaultCausesByInstruction := by
  intro i s t hr ht hf
  obtain ⟨cause, hc, hraised⟩ := exec_raised_of_faulted (by simp [hr]) ht hf
  cases i with
  | ret | call _ | jpV0 _ | ldB _ | ldMemVx _ | ldVxMem _ | skp _ | sknp _ => exact hraised.of_guard hc
  | drw _ _ _ => exact and_assoc.mp (hraised.of_guard hc)
  | _ => cases hc

/-- Settles O56: an instruction without a fault moves RUN by the wait of Fx0A alone. -/
theorem onlyTheKeyWaitMovesTheRunState : Obligations.OnlyTheKeyWaitMovesTheRunState := by
  intro i s t ht hrun
  obtain ⟨hn, -⟩ | ⟨cause, -, hraised⟩ := instructionsWriteOnlyTheirParts i s t ht
  · exact .inl ((exec_run_of_faultOf_none hn ht).resolve_left hrun)
  · exact .inr ⟨cause, hraised⟩

/-! ### start and stop -/

/-- Settles O47: neither Running nor a wait is a state from which a start is possible. -/
theorem startWhileActiveIsRefused : Obligations.StartWhileActiveIsRefused := by
  rintro s program (hr | ⟨x, hr⟩) <;> rw [State.deliver, State.hostStart, hr] <;> rfl

/-- Settles O50, by the run state in which the stop comes. -/
theorem stopHaltsTheLoop : Obligations.StopHaltsTheLoop := by
  intro s
  constructor
  · rintro (hr | ⟨x, hr⟩) <;> rw [State.deliver, State.hostStop, hr]
  · rintro (hr | hr | hr) <;> rw [State.deliver, State.hostStop, hr]

/-! ### press and release -/

/-- Outside a wait a press of a key up to 15 sets its latch and no more (R146). -/
theorem State.hostPress_of_not_waitKey {s : State} {k : Nat} (hk : k ≤ 15) (hr : ∀ x, s.run ≠ .waitKey x) :
    s.hostPress k = s.setKey k true := by
  rw [State.hostPress, if_neg hk.not_gt]
  split
  case h_1 x hx => exact absurd hx (hr x)
  case h_2 => rfl

theorem State.hostRelease_of_le {s : State} {k : Nat} (hk : k ≤ 15) : s.hostRelease k = s.setKey k false :=
  if_neg hk.not_gt

/-- Settles O51: the press is a write of one latch, or nothing. -/
theorem pressSetsTheLatch : Obligations.PressSetsTheLatch := by
  refine fun s k => ⟨fun hk hr => ?_, fun hk => congrArg _ (if_pos hk)⟩
  exact ⟨_, congrArg _ (State.hostPress_of_not_waitKey hk hr), s.keyLatch_setKey (Nat.lt_succ_of_le hk) true,
    s.frame_setKey k true⟩

/-- Settles O52: the release is a write of one latch, or nothing. -/
theorem releaseClearsTheLatch : Obligations.ReleaseClearsTheLatch := by
  refine fun s k => ⟨fun hk => ?_, fun hk => congrArg _ (if_pos hk)⟩
  exact ⟨_, congrArg _ (State.hostRelease_of_le hk), s.keyLatch_setKey (Nat.lt_succ_of_le hk) false,
    s.frame_setKey k false⟩

end Sys2Proof.Machine
end

section
/-! Reset and quiescence (70_reset_and_hazards.md): what a start leaves after a program that fits and after one that does
not, the memory that construction leaves, the launch state, and the jump to itself. -/

namespace Sys2Proof.Machine

/-! ### The two answers of start -/

/-- The state that start leaves of s after a program that fits: the reset values, the program from PROG_BASE on, and the
loop running (R152). -/
def State.loaded (s : State) (program : List Byte) : State :=
  { s.resetForStart with run := .running, mem := s.mem.writeBytes Config.progBase program }

/-- Idle, Stopped and Faulted are the run states from which a start is possible (R144). -/
theorem State.deliver_start {s : State} (hr : s.run = .idle ∨ s.run = .stopped ∨ s.run = .faulted) (program : List Byte) :
    s.deliver (.start program) = .next (s.startProgram program) := by
  rw [State.deliver, State.hostStart]
  obtain hr | hr | hr := hr <;> rw [hr] <;> rfl

/-- A program of at most PROG_MAX bytes is loaded (R152). -/
theorem State.startProgram_of_fits {s : State} {program : List Byte} (hfits : program.length ≤ 3584) :
    s.startProgram program = s.loaded program :=
  if_neg hfits.not_gt

/-- A longer program is not written, and the fault has neither opcode nor address (R155). -/
theorem State.startProgram_of_long {s : State} {program : List Byte} (hlong : 3584 < program.length) :
    s.startProgram program =
      { s.resetForStart with run := .faulted, fault := some ⟨.addressOutOfRange, none, none⟩ } :=
  if_pos hlong

/-! ### What a start writes and what it keeps -/

/-- A program that fits is read back from PROG_BASE on. -/
theorem State.memRead_loaded (s : State) {program : List Byte} (hfits : program.length ≤ 3584) {j : Nat}
    (hj : j < program.length) : (s.loaded program).memRead (0x200 + j) = program[j]? := by
  rw [List.getElem?_eq_getElem hj]
  exact State.memRead_store_inside (s := s) (by omega) hj

/-- Outside the program every byte of memory is kept. -/
theorem State.memSameOutside_loaded (s : State) (program : List Byte) :
    MemSameOutside 0x200 program.length s (s.loaded program) :=
  s.store_outside 0x200 program

/-- The stack slots, the keypad, the last snapshot, the draws and the script are no part of a start (R152). -/
theorem State.frame_loaded (s : State) (program : List Byte) :
    Frame [.v, .i, .pc, .dt, .st, .sp, .fb, .run, .fault, .mem] s (s.loaded program) := by
  simp [Frame, State.loaded, State.resetForStart]

/-- The first steps of start, whatever RUN and FAULT then become, keep memory as well (R155). -/
theorem State.frame_resetForStart (s : State) (r : RunState) (f : Option FaultRecord) :
    Frame [.v, .i, .pc, .dt, .st, .sp, .fb, .run, .fault] s { s.resetForStart with run := r, fault := f } := by
  simp [Frame, State.resetForStart, State.memRead]

/-- Settles O46, by whether the program fits: the reset values are those of R152 both times. -/
theorem startResetsAndLoads : Obligations.StartResetsAndLoads := by
  intro s program hr
  refine ⟨_, State.deliver_start hr program, ?_⟩
  obtain hfits | hlong := le_or_gt program.length 3584
  · rw [State.startProgram_of_fits hfits]
    exact ⟨rfl, rfl, rfl, rfl, s.getV_resetForStart, rfl, fun px py _ _ => FrameBuffer.pixel_clear px py,
      fun hlong => absurd hlong hfits.not_gt, fun _ => ⟨rfl, rfl, fun _ => s.memRead_loaded hfits,
        s.memSameOutside_loaded program, s.frame_loaded program⟩⟩
  · rw [State.startProgram_of_long hlong]
    exact ⟨rfl, rfl, rfl, rfl, s.getV_resetForStart, rfl, fun px py _ _ => FrameBuffer.pixel_clear px py,
      fun _ => ⟨rfl, rfl, s.frame_resetForStart _ _⟩, fun hfits => absurd hfits hlong.not_ge⟩

/-! ### The launch state -/

/-- Construction leaves the font below 0x050 and the background above it (R151). -/
theorem State.memRead_construct {p : Config.Params} (hfont : p.font.length = 80) (hback : p.background.length = 4096)
    (a : Nat) : (State.construct p).memRead a = if a < 80 then p.font[a]? else p.background[a]? := by
  rw [State.memRead, State.mem_construct, List.take_of_length_le hfont.le, List.take_of_length_le hback.le,
    Memory.read_writeBytes, Memory.read_writeBytes]
  obtain hfontAt | ⟨habove, hin⟩ | hout : a < 80 ∨ (80 ≤ a ∧ a ≤ 0xFFF) ∨ 0xFFF < a := by omega
  · rw [if_neg (by omega), dif_pos (by omega), if_pos hfontAt]
    simp [hfont, hfontAt]
  · rw [if_neg hin.not_gt, dif_neg (by omega), dif_pos (by omega), if_neg habove.not_gt]
    simp [hback, Nat.lt_succ_of_le hin]
  · rw [if_pos hout, if_neg (by omega), List.getElem?_eq_none (by omega)]

/-- Settles O48: the program covers its own bytes, and construction left the others. -/
theorem launchStateAfterConstruction : Obligations.LaunchStateAfterConstruction := by
  intro p program hfont hback hfits
  have hstart := State.deliver_start (s := State.construct p) (.inl rfl) program
  rw [State.startProgram_of_fits hfits] at hstart
  have hkept {a : Nat} (ha : ¬(0x200 ≤ a ∧ a < 0x200 + program.length)) :
      ((State.construct p).loaded program).memRead a = if a < 80 then p.font[a]? else p.background[a]? :=
    (State.memSameOutside_loaded _ program a ha).trans (State.memRead_construct hfont hback a)
  refine ⟨_, hstart, rfl, rfl, rfl, rfl, rfl, (State.construct p).getV_resetForStart, FrameBuffer.pixel_clear,
    fun k hk => ?key, rfl, rfl, rfl, rfl, fun a ha => ?font, fun a ha ha' => ?reserved,
    fun _ => State.memRead_loaded _ hfits, fun a ha => ?after⟩
  case key => exact State.keyLatch_eq_some.mpr ⟨Nat.lt_succ_of_le hk, Vector.getElem_replicate _⟩
  case font => rw [hkept (by omega), if_pos ha]
  case reserved => rw [hkept (by omega), if_neg ha.not_gt]
  case after => rw [hkept (by omega), if_neg (by omega)]

/-- Settles O49: the default construction lists no cell, and the empty program writes none. -/
theorem resetIsTheLaunchOfTheEmptyProgram : Obligations.ResetIsTheLaunchOfTheEmptyProgram := by
  rw [Obligations.ResetIsTheLaunchOfTheEmptyProgram, State.deliver_start (.inl rfl),
    State.startProgram_of_fits (Nat.zero_le _), State.loaded, Memory.writeBytes, State.mem_construct_default]
  rfl

/-! ### The jump to itself -/

/-- Settles O60: the jump leaves its own state, so its completed cycle is the timer step and the snapshot alone (O13). -/
theorem jumpToSelfIsQuiescent : Obligations.JumpToSelfIsQuiescent := by
  intro s nnn hr hs hself hfetch
  have htarget : addrWord nnn = s.pc := BitVec.eq_of_toNat_eq ((addrWord_toNat nnn).trans hself)
  have hexec : exec (.jp nnn) s = .next s := by rw [exec_jp, htarget, State.setPc_self]
  obtain ⟨t, ht, hcompleted, -⟩ :=
    completedCycleStepsTimersAndPublishes s s _ _ hr hs hfetch (decodeWord_encode (.jp nnn) rfl) hexec
  exact ⟨t, ht, hcompleted hr⟩

end Sys2Proof.Machine
end
